-- ==== Sys2Proof/Word.lean ====
section
/-!
DEFINITION. The words of the Fletcher-64 engine, each at the width spec/00_scope.md rule R6 gives it.
Every quantity is unsigned (rule R7); bit 0 is the least significant bit (rule R8).
-/

namespace Sys2Proof

/-- `ACC_W` = 64: one accumulator, `c0` or `c1` (R6, R20). -/
abbrev Acc := BitVec 64

/-- `RES_W` = 64: one result on the response channel (R6, R70). -/
abbrev Result := BitVec 64

/-- `ELEM_W` = 32: one element (R6). -/
abbrev Elem := BitVec 32

/-- `BYTE_W` = 8: one byte of the byte adapter (R6, R120). -/
abbrev Byte := BitVec 8

/-- `CMD_W` = 34: one command word `{op[1:0], data[31:0]}` (R6, R60). -/
abbrev CmdWord := BitVec 34

/-- `OP_W` = 2: the opcode field of a command word (R6, R60). -/
abbrev OpField := BitVec 2

end Sys2Proof
end

