-- ==== Sys2Proof/Config.lean ====
section
/-!
DEFINITION. The engine's parameters (spec/00_scope.md rule R6). Every one of them is fixed by the spec,
so nothing here is free: the engine has no implementation-defined value that a response can show
(spec/93_implementation_defined.md, part 2). `TEXT_ENCODING`, the one parameter, lives in the host and
is an argument of the text adapter (`Sys2Proof.Machine.checksumOfText`), never a part of the engine.
-/

namespace Sys2Proof

/-- `BLOCK`: elements per full block (R6). -/
abbrev Config.block : Nat := 360

/-- `MOD` = 2^32 - 1: modulus of the reduction (R6). -/
abbrev Config.modulus : Nat := 0xFFFFFFFF

end Sys2Proof
end

