-- ==== Sys2Proof/Syntax.lean ====
section
/-!
DEFINITION. The engine's instructions are its four commands (spec/00_scope.md rules R1, R10;
spec/opcode_table.json). The step without a command (idle, rule R64) is not one of them: it has no word.
-/

namespace Sys2Proof

/-- One constructor per row of spec/opcode_table.json. Only the bits a command uses are operands: the
ignored bits of a word (R66) do not survive decoding. -/
inductive Instr where
  /-- CLR (R101): clear the engine for a new invocation. -/
  | clr
  /-- PUSH e (R102): absorb one 32-bit element. -/
  | push (e : Elem)
  /-- PUSHB b (R103): absorb one byte as one element. -/
  | pushb (b : Byte)
  /-- FIN (R104): close the open block, if there is one, and emit the packed result. -/
  | fin
deriving DecidableEq, Repr

end Sys2Proof
end

