-- ==== Sys2Proof/Machine/Operands.lean ====
section
/-!
DEFINITION. The fields of a command word and the operands taken from them (spec/30_encoding.md rules R60,
R62). Nothing is sign-extended, scaled or shifted (R62).
-/

namespace Sys2Proof.Machine

/-- `op = w[33:32]` (R60). -/
def opOf (w : CmdWord) : OpField := w.extractLsb' 32 2

/-- `data = w[31:0]` (R60). -/
def dataOf (w : CmdWord) : BitVec 32 := w.extractLsb' 0 32

/-- The element of PUSH: `e = data[31:0]` (R62). -/
def elementOf (w : CmdWord) : Elem := dataOf w

/-- The byte of PUSHB: `b = data[7:0]`; `data[31:8]` is ignored (R62). -/
def byteOf (w : CmdWord) : Byte := (dataOf w).extractLsb' 0 8

/-- `zext_32(b)`: the element a byte becomes (R62, R103, R120). -/
def elementOfByte (b : Byte) : Elem := b.setWidth 32

/-- `zext_64(e)`: an element widened for the accumulators (R83). -/
def accOfElement (e : Elem) : Acc := e.setWidth 64

/-- The word `{op, data}` (R60). -/
def wordOf (op : OpField) (data : BitVec 32) : CmdWord := op ++ data

/-- The high half `v[63:32]` of a result, the final `c1` (R70). -/
def resultHi (v : Result) : BitVec 32 := v.extractLsb' 32 32

/-- The low half `v[31:0]` of a result, the final `c0` (R70). -/
def resultLo (v : Result) : BitVec 32 := v.extractLsb' 0 32

end Sys2Proof.Machine
end

