-- ==== Sys2Proof/WellFormed.lean ====
section
/-!
DEFINITION. Which commands are well formed.

A decoded command needs no check: "No command word is illegal" (spec/30_encoding.md rule R65) and "every
element value 0 to 0xFFFFFFFF is accepted" (spec/20_memory.md rule R50); the operand types of `Instr` are
the check the spec speaks of ("The channel is 32 bits wide, so the type is the check").

What can be ill formed is a command as it is WRITTEN, with a number for its operand: "An operand outside the
stated range is an assembler error; the assembler never truncates" (rule R68). `SrcCommand` is that written
form, with the pseudo-commands of rule R69, and `SrcCommand.wf` its range check.
-/

namespace Sys2Proof

/-- Every command is well formed (R50, R65). -/
def Instr.wf : Instr → Bool
  | .clr => true
  | .push _ => true
  | .pushb _ => true
  | .fin => true

/-- A command or pseudo-command as written in assembly (R68, R69), its operands still plain numbers, and
for CHECKSUM_TEXT a text as a sequence of characters. -/
inductive SrcCommand where
  | clr
  | push (e : Nat)
  | pushb (b : Nat)
  | fin
  | pusht (b : Nat)
  | checksum (es : List Nat)
  | checksumBytes (bs : List Nat)
  | checksumText (t : List Char)
deriving DecidableEq, Repr

/-- `0 <= e <= 0xFFFFFFFF` (R68, the operand of PUSH). -/
def elemInRange (e : Nat) : Bool := decide (e ≤ 0xFFFFFFFF)

/-- `0 <= b <= 255` (R68, the operand of PUSHB; R69, of PUSHT). -/
def byteInRange (b : Nat) : Bool := decide (b ≤ 255)

/-- Every operand of a written command is in its range (R68). -/
def SrcCommand.wf : SrcCommand → Bool
  | .clr => true
  | .push e => elemInRange e
  | .pushb b => byteInRange b
  | .fin => true
  | .pusht b => byteInRange b
  | .checksum es => es.all elemInRange
  | .checksumBytes bs => bs.all byteInRange
  | .checksumText _ => true

end Sys2Proof
end

