-- ==== Sys2Proof/Decode.lean ====
section
/-!
DEFINITION. The decoder and the encoder of command words (spec/30_encoding.md rules R60 to R67).

A command is one 34-bit word, never a run of bytes in a memory: the engine fetches nothing (spec/20_memory.md
rules R40, R49) and has no byte order (R42). So the decoder reads a word, and it is total: `op` alone selects
the command and no word is refused (R63, R65).
-/

namespace Sys2Proof

/-- The opcode of each command, the `op` column of R63. -/
def opcode : Instr → OpField
  | .clr => 0b00#2
  | .push _ => 0b01#2
  | .pushb _ => 0b10#2
  | .fin => 0b11#2

/-- The decoder of R63, with the operands of R62. Ignored bits are read by nothing (R66). -/
def decode (w : CmdWord) : Instr :=
  if Machine.opOf w = 0b00#2 then .clr
  else if Machine.opOf w = 0b01#2 then .push (Machine.elementOf w)
  else if Machine.opOf w = 0b10#2 then .pushb (Machine.byteOf w)
  else .fin

/-- The `data` field of a command's canonical word: the operand, and 0 in every ignored bit (R63). -/
def canonicalData : Instr → BitVec 32
  | .clr => 0#32
  | .push e => e
  | .pushb b => Machine.elementOfByte b
  | .fin => 0#32

/-- The canonical word of a command, the one an assembler emits (R63, R68). -/
def encode (i : Instr) : CmdWord := Machine.wordOf (opcode i) (canonicalData i)

/-- The `mask` column of R63, the same in all four rows. -/
def opMask : CmdWord := 0x300000000#34

/-- The `match` column of R63. -/
def opMatch : Instr → CmdWord
  | .clr => 0x000000000#34
  | .push _ => 0x100000000#34
  | .pushb _ => 0x200000000#34
  | .fin => 0x300000000#34

/-- The instruction of the opcode table's word `w`, numbered as the table numbers its bits. A command word
has 34 bits whatever whole number of bytes is asked about; a number that no 34 bits hold is no command word
(notes/assumptions/7.md). -/
def decodeTableWord (_nbits w : Nat) : Option Instr :=
  if w < 2 ^ 34 then some (decode (BitVec.ofNat 34 w)) else none

end Sys2Proof
end

