-- ==== Sys2Proof/Machine/State.lean ====
section
/-!
DEFINITION. The state of the engine (spec/10_state.md), the two channels and the reset input through which
the host meets it (spec/20_memory.md rule R44, spec/70_reset_and_hazards.md rule R150), and the state right
after reset (R31, R151).

"There is no other state" (R151): no memory and no address (R40), no program counter (R26), no flag (R27), no
control register (R28), nothing hidden (R29), no saved state of a trap (R135), no mode (R136).
-/

namespace Sys2Proof.Machine

/-- What the host drives on one step: whether reset is applied (R150), and what the command channel carries,
nothing (idle) or one command word (R44). Both may come together (R150). -/
structure Input where
  reset : Bool
  cmd   : Option CmdWord
deriving DecidableEq, Repr

/-- The engine's registers, and its channels as plain data. -/
structure State where
  /-- The first-order running sum (R20). -/
  c0    : Acc
  /-- The second-order running sum (R20). -/
  c1    : Acc
  /-- Elements absorbed into the current block and not yet reduced, 0 to 359 (R24); "a model should give `cnt`
  the type of naturals below 360" (R25; notes/assumptions/3.md). -/
  cnt   : Fin 360
  /-- The ghost count of reductions (R30): no command reads it and no response depends on it. -/
  nred  : Nat
  /-- What the response channel carries on the step that led to this state (R44). It is not a register: no
  command reads it and the next step writes it again (notes/assumptions/2.md). -/
  res   : Option Result
  /-- What the host will drive on the coming steps, the next one first; after the last, nothing (idle)
  (notes/assumptions/1.md). -/
  input : List Input
deriving DecidableEq, Repr

/-- The engine raises no exception and no command can fault (spec/60_exceptions.md rule R130): there is no
fault to name, and the type has no value. Nobody raises one. Safe: nothing is claimed of a fault. -/
inductive Fault where
deriving DecidableEq, Repr

/-- Why a step has no meaning. -/
inductive Refusal where
  /-- Raised only by an arm of `exec` whose instruction has no meaning yet. Every command has its meaning, so
  no step of this model raises it (R130: "it has no fault outcome and no refusal outcome"). Safe: a stop. -/
  | notModelled (mnemonic : String)
deriving DecidableEq, Repr

/-- The state after reset: `c0 = 0`, `c1 = 0`, `cnt = 0`, `nred = 0` (R31, R151); reset emits nothing (R150), and
the host has driven nothing yet. -/
def State.reset : State :=
  { c0 := 0#64, c1 := 0#64, cnt := 0, nred := 0, res := none, input := [] }

end Sys2Proof.Machine
end

