-- ==== Sys2Proof/Machine/Flags.lean ====
section
/-!
DEFINITION. The engine has no flags: "No command sets a flag as a side effect" (spec/10_state.md rule R27). What
stands here is the two conditions its commands decide on, both comparisons of the block position (R26, R90).
-/

namespace Sys2Proof.Machine

/-- A block has just filled: `cnt = 360`, seen only inside the step of a PUSH or PUSHB (R24, R102). -/
abbrev BlockFull (k : Fin 361) : Prop := k.val = Config.block

/-- A partial block is pending: `cnt != 0`, what FIN asks (R104). -/
abbrev BlockOpen (k : Fin 360) : Prop := k.val ≠ 0

end Sys2Proof.Machine
end

