-- ==== Sys2Proof/Machine/Ops.lean ====
section
/-!
DEFINITION. The operations the commands are built from: the micro-operations ABSORB, REDUCE and PACK
(spec/40_core_function.md rules R83, R84, R85), clearing, the response channel, reset (spec/70_reset_and_hazards.md
rule R150), the idle step (spec/41_commands.md rule R100), and taking what the host drives on this step.

There is no exception to take and none to return from (spec/60_exceptions.md rules R130, R135), and no memory
to read or write (spec/20_memory.md rule R40), so no operation for either stands here.
-/

namespace Sys2Proof.Machine

/-- The registers inside a step, after ABSORB: here alone the count may be 360 (R24). -/
structure Absorbed where
  c0  : Acc
  c1  : Acc
  cnt : Fin 361
deriving DecidableEq, Repr

/-- The modulus as an accumulator value. -/
def modAcc : Acc := BitVec.ofNat 64 Config.modulus

/-- ABSORB(e) (R83): `c0 <- c0 + zext_64(e)`, then `c1 <- c1 + c0` with the NEW `c0`, both modulo 2^64, and
`cnt <- cnt + 1`. -/
def absorb (e : Elem) (s : State) : Absorbed :=
  let c0 := s.c0 + accOfElement e
  { c0 := c0, c1 := s.c1 + c0, cnt := s.cnt.succ }

/-- REDUCE (R84): both accumulators modulo 0xFFFFFFFF, `cnt <- 0`, and the ghost count one up. -/
def reduce (s : State) : State :=
  { s with c0 := s.c0 % modAcc, c1 := s.c1 % modAcc, cnt := 0, nred := s.nred + 1 }

/-- PACK (R85): `((c1 << 32) | c0) mod 2^64`. -/
def pack (s : State) : Result := (s.c1 <<< 32) ||| s.c0

/-- Take over the registers ABSORB left, and `if cnt = 360 then REDUCE` (R102). -/
def settle (a : Absorbed) (s : State) : State :=
  if h : BlockFull a.cnt then reduce { s with c0 := a.c0, c1 := a.c1 }
  else { s with c0 := a.c0, c1 := a.c1, cnt := ⟨a.cnt.val, by have := a.cnt.isLt; simp only [BlockFull, Config.block] at h; omega⟩ }

/-- One element into the engine: `ABSORB(e); if cnt = 360 then REDUCE` (R102). -/
def pushElement (e : Elem) (s : State) : State := settle (absorb e s) s

/-- `if cnt != 0 then REDUCE` (R104). -/
def closeBlock (s : State) : State := if BlockOpen s.cnt then reduce s else s

/-- What the response channel carries on this step (R44). -/
def respond (r : Option Result) (s : State) : State := { s with res := r }

/-- Every register at 0: what CLR and reset do (R101, R150). -/
def clear (s : State) : State := { s with c0 := 0#64, c1 := 0#64, cnt := 0, nred := 0 }

/-- The reset transition (R150): the cleared state, and nothing emitted. -/
def applyReset (s : State) : State := respond none (clear s)

/-- The idle step (R100): the registers keep their values, and nothing is emitted. -/
def idle (s : State) : State := respond none s

/-- What the host drives on this step; nothing once its sequence has ended (R44, R64). -/
def drivenInput (s : State) : Input := s.input.headD { reset := false, cmd := none }

/-- The state once this step's input is taken: a command word "is not retained" (R49). -/
def takeInput (s : State) : State := { s with input := s.input.tail }

/-- The step's input driving the command word `w` and no reset. -/
def wordInput (w : CmdWord) : Input := { reset := false, cmd := some w }

end Sys2Proof.Machine
end

