-- ==== Sys2Proof/Machine/Commands.lean ====
section
/-!
DEFINITION. The meaning of each command (spec/41_commands.md rules R101 to R104). Every one completes within its
step, from every state and for every operand (R130, R157).
-/

namespace Sys2Proof.Machine

/-- CLR (R101): `c0`, `c1`, `cnt` and the ghost `nred` to 0; emits nothing. -/
def execClr (s : State) : Host.Outcome State Fault Refusal :=
  .next (respond none (clear s))

/-- PUSH e (R102): ABSORB(e), and REDUCE if that fills the block; emits nothing. -/
def execPush (e : Elem) (s : State) : Host.Outcome State Fault Refusal :=
  .next (respond none (pushElement e s))

/-- PUSHB b (R103): as PUSH of `zext_32(b)`, never sign-extended; emits nothing. -/
def execPushb (b : Byte) (s : State) : Host.Outcome State Fault Refusal :=
  .next (respond none (pushElement (elementOfByte b) s))

/-- FIN (R104): REDUCE if a block is open, then emit PACK of what that leaves. It does not clear. -/
def execFin (s : State) : Host.Outcome State Fault Refusal :=
  .next (respond (some (pack (closeBlock s))) (closeBlock s))

end Sys2Proof.Machine
end

