-- ==== Sys2Proof/Machine/Dispatch.lean ====
section
/-!
DEFINITION. One arm per command (spec/opcode_table.json), each one direct call of its meaning.
-/

namespace Sys2Proof.Machine

def exec (i : Instr) (s : State) : Host.Outcome State Fault Refusal :=
  match i with
  | .clr => Sys2Proof.Machine.execClr s
  | .push e => Sys2Proof.Machine.execPush e s
  | .pushb b => Sys2Proof.Machine.execPushb b s
  | .fin => Sys2Proof.Machine.execFin s

end Sys2Proof.Machine
end

