-- ==== Sys2Proof/Machine/Channel.lean ====
section
/-!
DEFINITION. What one step does with what the host drives on it (spec/00_scope.md rule R10, spec/20_memory.md rule
R44, spec/70_reset_and_hazards.md rule R150).
-/

namespace Sys2Proof.Machine

/-- Reset first: "A command presented together with reset is not executed" (R150). Then the command, if one is
presented, decoded and executed whole within the step (R45); else the idle step (R100). -/
def perform (x : Input) (s : State) : Host.Outcome State Fault Refusal :=
  if x.reset then .next (applyReset s)
  else
    match x.cmd with
    | none => .next (idle s)
    | some w => exec (decode w) s

end Sys2Proof.Machine
end

