-- ==== Sys2Proof/Machine/Step.lean ====
section
/-!
DEFINITION. The step (spec/00_scope.md rule R10): it takes the next of the host's inputs and performs it.
-/

namespace Sys2Proof.Machine

/-- One step of the engine. -/
def step (s : State) : Host.Outcome State Fault Refusal :=
  perform (drivenInput s) (takeInput s)

/-- `s` with the command word `w` presented on its very next step, before what the host was going to drive
(notes/assumptions/5.md). -/
def State.withFetchWord (s : State) (_nbits w : Nat) : State :=
  { s with input := wordInput (BitVec.ofNat 34 w) :: s.input }

end Sys2Proof.Machine
end

