-- ==== Sys2Proof/Machine/Checksum.lean ====
section
/-!
DEFINITION. The function `checksum` the commands are held to (spec/40_core_function.md rule R80), written from the
source's six steps and from nothing of the engine; its closed form (R88); and the byte and text adapters
(spec/42_adapters.md rules R120 to R124). The sums are exact: "over the integers" no step can wrap (R83, R91;
notes/assumptions/10.md).
-/

namespace Sys2Proof.Machine

/-- Step 2: "consecutive blocks of exactly 360 elements, with the final block containing the remainder"; an empty
sequence has no block. The first argument bounds the recursion. -/
def blocksUpTo : Nat → List Elem → List (List Elem)
  | 0, _ => []
  | _ + 1, [] => []
  | n + 1, e :: S => (e :: S).take Config.block :: blocksUpTo n ((e :: S).drop Config.block)

/-- Step 2 of R80. A sequence of n elements has at most n blocks. -/
def blocks (S : List Elem) : List (List Elem) := blocksUpTo S.length S

/-- Step 3 of R80 on one block: `c0 <- c0 + e; c1 <- c1 + c0`, with the new `c0`. -/
def blockSums : List Elem → Nat × Nat → Nat × Nat
  | [], p => p
  | e :: K, p => blockSums K (p.1 + e.toNat, p.2 + (p.1 + e.toNat))

/-- Steps 3 and 4 of R80 on one block: the sums, and both reduced right after the block's last element. -/
def reducedSums (p : Nat × Nat) (K : List Elem) : Nat × Nat :=
  ((blockSums K p).1 % Config.modulus, (blockSums K p).2 % Config.modulus)

/-- Steps 1 to 5 of R80: the pair `(c0, c1)` after the last block. -/
def checksumPair (S : List Elem) : Nat × Nat := (blocks S).foldl reducedSums (0, 0)

/-- Step 6 of R80: `(c1 << 32) | c0` as an unsigned 64-bit value. -/
def packPair (p : Nat × Nat) : Result := BitVec.ofNat 64 ((p.2 <<< 32) ||| p.1)

/-- `checksum(S)` (R80). -/
def checksum (S : List Elem) : Result := packPair (checksumPair S)

/-- `A = S[0] + S[1] + ... + S[n-1]` (R88). -/
def sumA : List Elem → Nat
  | [] => 0
  | e :: S => e.toNat + sumA S

/-- `B = n*S[0] + (n-1)*S[1] + ... + 1*S[n-1]` (R88). -/
def sumB : List Elem → Nat
  | [] => 0
  | e :: S => (S.length + 1) * e.toNat + sumB S

/-- `ceil(n / 360)`: how many blocks n elements make (R80, R87). -/
def blockCount (n : Nat) : Nat := (n + (Config.block - 1)) / Config.block

/-- `elements(Bs)` (R120): one byte, one element. -/
def elementsOfBytes (B : List Byte) : List Elem := B.map elementOfByte

/-- `checksum_of_bytes(Bs)` (R121). -/
def checksumOfBytes (B : List Byte) : Result := checksum (elementsOfBytes B)

/-- `TEXT_ENCODING` (R6, R124): how a host turns a text into the bytes of its raw storage. -/
abbrev TextEncoding := List Char → List Byte

/-- `checksum_of_text(T)` under a host's encoding (R123). -/
def checksumOfText (enc : TextEncoding) (t : List Char) : Result := checksumOfBytes (enc t)

/-- The UTF-8 code units of one character. PRESUMED: the spec names the encoding and does not define it
(notes/assumptions/11.md). -/
def utf8Units (c : Char) : List Byte :=
  let n := c.toNat
  if n < 0x80 then [BitVec.ofNat 8 n]
  else if n < 0x800 then [BitVec.ofNat 8 (0xC0 + n / 64), BitVec.ofNat 8 (0x80 + n % 64)]
  else if n < 0x10000 then
    [BitVec.ofNat 8 (0xE0 + n / 4096), BitVec.ofNat 8 (0x80 + n / 64 % 64), BitVec.ofNat 8 (0x80 + n % 64)]
  else
    [BitVec.ofNat 8 (0xF0 + n / 262144), BitVec.ofNat 8 (0x80 + n / 4096 % 64),
      BitVec.ofNat 8 (0x80 + n / 64 % 64), BitVec.ofNat 8 (0x80 + n % 64)]

/-- `TEXT_ENCODING` as the spec sets it: UTF-8 code units, no byte-order mark, no normalisation (R124). -/
def utf8 : TextEncoding := fun t => t.flatMap utf8Units

end Sys2Proof.Machine
end

