-- ==== Sys2Proof/Machine/Assembler.lean ====
section
/-!
DEFINITION. The spec's assembler (spec/30_encoding.md rules R68, R69): the commands a written line stands for, the
words they emit, the range check on operands, and the reading of a line's text. It has no effect on the engine
(spec/92_eei_decisions.md D8).
-/

namespace Sys2Proof.Machine

/-- Why a line does not assemble. Raised by the assembler only, before anything reaches the engine. Safe: nothing is
emitted. -/
inductive AsmError where
  /-- The line does not begin with a mnemonic of R68 or R69 in upper case. -/
  | unknownMnemonic
  /-- The operand is not written as R68 and R69 write it. -/
  | badOperand
  /-- "An operand outside the stated range is an assembler error" (R68). -/
  | outOfRange
  /-- Something other than blanks and a comment follows the command ("One command per line", R68). -/
  | trailingText
deriving DecidableEq, Repr

/-- What a line assembles to. -/
inductive AsmResult (α : Type) where
  | ok (a : α)
  | error (e : AsmError)
deriving DecidableEq, Repr

/-- The commands a written command stands for, its operands being in range (R69). -/
def expand (enc : TextEncoding) : SrcCommand → List Instr
  | .clr => [.clr]
  | .push e => [.push (BitVec.ofNat 32 e)]
  | .pushb b => [.pushb (BitVec.ofNat 8 b)]
  | .fin => [.fin]
  | .pusht b => [.pushb (BitVec.ofNat 8 b)]
  | .checksum es => .clr :: (es.map (fun e => Instr.push (BitVec.ofNat 32 e)) ++ [.fin])
  | .checksumBytes bs => .clr :: (bs.map (fun b => Instr.pushb (BitVec.ofNat 8 b)) ++ [.fin])
  | .checksumText t => .clr :: ((enc t).map Instr.pushb ++ [.fin])

/-- The words a written command emits, or the error; "the assembler never truncates" (R68). -/
def assemble (enc : TextEncoding) (c : SrcCommand) : AsmResult (List CmdWord) :=
  if c.wf then .ok ((expand enc c).map encode) else .error .outOfRange

/-! ### Reading a line (R68). What R68 leaves open of it is in notes/assumptions/12.md. -/

/-- A blank between the parts of a line. -/
def isBlank (c : Char) : Bool := c == ' ' || c == '\t' || c == '\r'

/-- A printable ASCII character (R68). -/
def isPrintable (c : Char) : Bool := decide (0x20 ≤ c.toNat) && decide (c.toNat ≤ 0x7E)

/-- The line after its leading blanks. -/
def skipBlanks : List Char → List Char
  | [] => []
  | c :: cs => if isBlank c then skipBlanks cs else c :: cs

/-- "`#` starts a comment running to the end of the line" (R68). -/
def atLineEnd (cs : List Char) : Bool :=
  match skipBlanks cs with
  | [] => true
  | c :: _ => c == '#'

/-- The mnemonic a line begins with: its upper-case letters and underscores. -/
def readMnemonic : List Char → List Char × List Char
  | [] => ([], [])
  | c :: cs =>
    if (decide (0x41 ≤ c.toNat) && decide (c.toNat ≤ 0x5A)) || c == '_' then
      (c :: (readMnemonic cs).1, (readMnemonic cs).2)
    else ([], c :: cs)

/-- The value of a digit of the given base. -/
def digitValue (base : Nat) (c : Char) : Option Nat :=
  let n := c.toNat
  let v := if 0x30 ≤ n ∧ n ≤ 0x39 then some (n - 0x30)
    else if 0x41 ≤ n ∧ n ≤ 0x46 then some (n - 0x41 + 10)
    else if 0x61 ≤ n ∧ n ≤ 0x66 then some (n - 0x61 + 10)
    else none
  match v with
  | none => none
  | some d => if d < base then some d else none

/-- The digits from here on, added to the value read so far. -/
def readDigits (base acc : Nat) : List Char → Nat × List Char
  | [] => (acc, [])
  | c :: cs =>
    match digitValue base c with
    | none => (acc, c :: cs)
    | some d => readDigits base (acc * base + d) cs

/-- At least one digit. -/
def readNumeral (base : Nat) : List Char → Option (Nat × List Char)
  | [] => none
  | c :: cs =>
    match digitValue base c with
    | none => none
    | some d => some (readDigits base d cs)

/-- "a decimal or `0x` hexadecimal literal" (R68). -/
def readNumber : List Char → Option (Nat × List Char)
  | '0' :: 'x' :: cs => readNumeral 16 cs
  | cs => readNumeral 10 cs

/-- For PUSHB and PUSHT also "a single printable ASCII character in single quotes standing for its byte value"
(R68). -/
def readByteOperand : List Char → Option (Nat × List Char)
  | '\'' :: c :: '\'' :: cs => if isPrintable c then some (c.toNat, cs) else none
  | cs => readNumber cs

/-- The numbers of a list after its opening bracket; the first argument bounds the recursion, the second says
whether the list may end here. -/
def readItems : Nat → Bool → List Char → Option (List Nat × List Char)
  | 0, _, _ => none
  | n + 1, mayEnd, cs =>
    match mayEnd, skipBlanks cs with
    | true, ']' :: rest => some ([], rest)
    | _, body =>
      match readNumber body with
      | none => none
      | some (v, rest) =>
        match skipBlanks rest with
        | ']' :: tail => some ([v], tail)
        | ',' :: tail =>
          match readItems n false tail with
          | none => none
          | some (vs, tail') => some (v :: vs, tail')
        | _ => none

/-- `[s0, s1, ..., sn-1]` (R69). -/
def readList : List Char → Option (List Nat × List Char)
  | '[' :: cs => readItems (cs.length + 1) true cs
  | _ => none

/-- The characters up to the closing double quote. -/
def readQuoted : List Char → Option (List Char × List Char)
  | [] => none
  | '"' :: cs => some ([], cs)
  | c :: cs =>
    match readQuoted cs with
    | none => none
    | some (t, rest) => some (c :: t, rest)

/-- `"t"` (R69). -/
def readText : List Char → Option (List Char × List Char)
  | '"' :: cs => readQuoted cs
  | _ => none

/-- The command a line holds once its operand is read, if nothing but a comment follows it. -/
def finishLine (r : Option (SrcCommand × List Char)) : AsmResult (Option SrcCommand) :=
  match r with
  | none => .error .badOperand
  | some (c, rest) => if atLineEnd rest then .ok (some c) else .error .trailingText

/-- An operand stands after at least one blank. -/
def operandText : List Char → Option (List Char)
  | [] => none
  | c :: cs => if isBlank c then some (skipBlanks cs) else none

/-- Read an operand and make the command of it. -/
def withOperand {α : Type} (read : List Char → Option (α × List Char)) (make : α → SrcCommand) (rest : List Char) :
    AsmResult (Option SrcCommand) :=
  match operandText rest with
  | none => .error .badOperand
  | some body =>
    match read body with
    | none => .error .badOperand
    | some (v, tail) => finishLine (some (make v, tail))

/-- The written command of one line; none for a line that holds only blanks or a comment (R68, R69). -/
def readLine (line : List Char) : AsmResult (Option SrcCommand) :=
  if atLineEnd line then .ok none
  else
    let m := readMnemonic (skipBlanks line)
    if m.1 = ['C', 'L', 'R'] then finishLine (some (.clr, m.2))
    else if m.1 = ['P', 'U', 'S', 'H'] then withOperand readNumber .push m.2
    else if m.1 = ['P', 'U', 'S', 'H', 'B'] then withOperand readByteOperand .pushb m.2
    else if m.1 = ['F', 'I', 'N'] then finishLine (some (.fin, m.2))
    else if m.1 = ['P', 'U', 'S', 'H', 'T'] then withOperand readByteOperand .pusht m.2
    else if m.1 = ['C', 'H', 'E', 'C', 'K', 'S', 'U', 'M'] then withOperand readList .checksum m.2
    else if m.1 = ['C', 'H', 'E', 'C', 'K', 'S', 'U', 'M', '_', 'B', 'Y', 'T', 'E', 'S'] then
      withOperand readList .checksumBytes m.2
    else if m.1 = ['C', 'H', 'E', 'C', 'K', 'S', 'U', 'M', '_', 'T', 'E', 'X', 'T'] then
      withOperand readText .checksumText m.2
    else .error .unknownMnemonic

/-- The words of one line. -/
def assembleLine (enc : TextEncoding) (line : List Char) : AsmResult (List CmdWord) :=
  match readLine line with
  | .error e => .error e
  | .ok none => .ok []
  | .ok (some c) => assemble enc c

/-- The words of a whole source, line by line; the first line in error stops it. -/
def assembleLines (enc : TextEncoding) : List (List Char) → AsmResult (List CmdWord)
  | [] => .ok []
  | l :: ls =>
    match assembleLine enc l, assembleLines enc ls with
    | .error e, _ => .error e
    | .ok _, .error e => .error e
    | .ok ws, .ok rest => .ok (ws ++ rest)

end Sys2Proof.Machine
end

