-- ==== Sys2Proof/Machine/Run.lean ====
section
/-!
DEFINITION. Runs: the fold of the step over what the host drives, with the emitted results in order
(spec/00_scope.md rule R10), and the sequences of inputs the spec's rules speak of.
-/

namespace Sys2Proof.Machine

/-- `s` with the host about to drive exactly `ins`. -/
def State.load (ins : List Input) (s : State) : State := { s with input := ins }

/-- `n` steps: the last state, and the results emitted on the way, in order (R10). A step that has no next
state would end the run there; no step of this engine does (R130). -/
def run : Nat → State → State × List Result
  | 0, s => (s, [])
  | n + 1, s =>
    match step s with
    | .next t => ((run n t).1, t.res.toList ++ (run n t).2)
    | .fault _ => (s, [])
    | .refused _ => (s, [])

/-- The run of exactly the inputs `ins` from `s`. -/
def runInputs (ins : List Input) (s : State) : State × List Result := run ins.length (s.load ins)

/-- A sequence of commands, each driven on a step of its own by its canonical word (R46, R63). -/
def commandInputs (cs : List Instr) : List Input := cs.map fun i => wordInput (encode i)

/-- The run of the commands `cs` from `s`. -/
def runCommands (cs : List Instr) (s : State) : State × List Result := runInputs (commandInputs cs) s

/-- An idle step's input (R64). -/
def idleInput : Input := { reset := false, cmd := none }

/-- PUSH of each element in order. -/
def pushes (S : List Elem) : List Instr := S.map Instr.push

/-- One invocation (R12, R106): `CLR; PUSH S[0]; ...; PUSH S[n-1]; FIN`. -/
def invocation (S : List Elem) : List Instr := Instr.clr :: (pushes S ++ [Instr.fin])

/-- One invocation of the byte adapter (R69, R121): `CLR; PUSHB b0; ...; PUSHB bn-1; FIN`. -/
def byteInvocation (B : List Byte) : List Instr := Instr.clr :: (B.map Instr.pushb ++ [Instr.fin])

/-- The elements one input pushes: one for a PUSH or a PUSHB, none for an idle step, and no answer for a step that
does something else (CLR, FIN, reset). -/
def pushedBy (x : Input) : Option (List Elem) :=
  if x.reset then none
  else
    match x.cmd with
    | none => some []
    | some w =>
      match decode w with
      | .clr => none
      | .push e => some [e]
      | .pushb b => some [elementOfByte b]
      | .fin => none

/-- The elements a sequence of inputs pushes, where it holds nothing but pushes and idle steps (R105: "any of them
may be a PUSHB of the same element value, and idle steps may be interleaved"). -/
def pushedElements : List Input → Option (List Elem)
  | [] => some []
  | x :: rest =>
    match pushedBy x, pushedElements rest with
    | some E, some S => some (E ++ S)
    | _, _ => none

end Sys2Proof.Machine
end

