-- ==== Sys2Proof/Safety.lean ====
section
/-!
DEFINITION. What counts as a good state and a good run (spec/10_state.md rules R22, R23, R32; spec/60_exceptions.md
rule R130; spec/70_reset_and_hazards.md rules R154 to R156).
-/

namespace Sys2Proof.Machine

/-- A reduced value: 0 to 0xFFFFFFFE (R12, R22). -/
abbrev Reduced (a : Acc) : Prop := a.toNat ≤ 0xFFFFFFFE

/-- The bound of R23 on `c0` with `cnt = k`. -/
def c0Bound (k : Nat) : Nat := 0xFFFFFFFE + k * 0xFFFFFFFF

/-- The bound of R23 on `c1` with `cnt = k`. -/
def c1Bound (k : Nat) : Nat := 0xFFFFFFFE + k * 0xFFFFFFFE + 0xFFFFFFFF * k * (k + 1) / 2

/-- The reachable-state invariant of R32: the bounds of R23 with k = `cnt`. (`cnt <= 359` is the field's type; with
`cnt = 0` the two bounds are those of R22.) -/
abbrev State.Inv (s : State) : Prop :=
  s.c0.toNat ≤ c0Bound s.cnt.val ∧ s.c1.toNat ≤ c1Bound s.cnt.val

/-- The block-end invariant of R22: with `cnt = 0` both accumulators are reduced. -/
abbrev State.BlockEnd (s : State) : Prop := s.cnt.val = 0 → Reduced s.c0 ∧ Reduced s.c1

/-- The cleared state: every register at 0 (R31, R101). -/
abbrev State.Cleared (s : State) : Prop := s.c0 = 0#64 ∧ s.c1 = 0#64 ∧ s.cnt = 0 ∧ s.nred = 0

/-- The same registers, the ghost count apart (R10: `State = (c0, c1, cnt)`). -/
abbrev State.SameRegs (s t : State) : Prop := s.c0 = t.c0 ∧ s.c1 = t.c1 ∧ s.cnt = t.cnt

end Sys2Proof.Machine
end

