-- ==== Sys2Proof/Certificates/Slice0/Obligations.lean ====
section
/-!
DEFINITION. The statements for the provers, rule by rule of spec/. Where a rule is the spec's own derivation
(marked [derived: …] there), the docstring says so. "Emits nothing" is said as `res = none`, and what the host is
about to drive as `input`: how the model holds the two channels is notes/assumptions/1.md and 2.md.
-/

open Sys2Proof Sys2Proof.Machine

/-! ### Reset, idle and the commands -/

/-- R31: after reset every register is 0, and that is the state CLR produces, whatever the state before. -/
def Obligations.ResetLeavesTheClearedState : Prop :=
  (State.reset.c0 = 0#64 ∧ State.reset.c1 = 0#64 ∧ State.reset.cnt.val = 0 ∧ State.reset.nred = 0) ∧
  ∀ s : State, exec .clr s = .next (State.reset.load s.input)

/-- R150: a step on which reset is applied leads to the cleared state from every state and emits nothing, and a
command presented together with it is not executed: whatever `c` is, the step is the same. It discards exactly as
CLR does. -/
def Obligations.ResetTransitionFromEveryState : Prop :=
  ∀ (s : State) (c : Option CmdWord) (rest : List Input),
    s.input = { reset := true, cmd := c } :: rest →
      step s = .next (State.reset.load rest) ∧ step s = exec .clr (s.load rest)

/-- R100: with no command presented the registers keep their values and nothing is emitted; any number of idle steps may
fall anywhere in a sequence of inputs without changing any later register or response. -/
def Obligations.IdleStepsAreTransparent : Prop :=
  (∀ (s : State) (rest : List Input), s.input = { reset := false, cmd := none } :: rest →
    step s = .next { s with res := none, input := rest }) ∧
  ∀ (ins : List Input) (s : State),
    let withIdles := runInputs ins s
    let without := runInputs (ins.filter fun x => decide (x ≠ idleInput)) s
    withIdles.2 = without.2 ∧ withIdles.1.SameRegs without.1 ∧ withIdles.1.nred = without.1.nred

/-- R101: CLR, selected by `op = 00` whatever `data` is, sets every register to 0 and emits nothing; from every state;
it is idempotent. -/
def Obligations.ClrClears : Prop :=
  (∀ s : State, exec .clr s = .next { s with c0 := 0#64, c1 := 0#64, cnt := 0, nred := 0, res := none }) ∧
  (∀ s t : State, exec .clr s = .next t → exec .clr t = .next t ∧ t = State.reset.load s.input) ∧
  (∀ w : CmdWord, opOf w = 0b00#2 → decode w = .clr)

/-- R102: PUSH completes from every state of the reachable-state invariant, for every element; below the block's last
place the sums are exact and nothing is reduced, at the last place both are reduced in the same step. `op = 01`
selects it, with the whole of `data` its element. -/
def Obligations.PushAbsorbsAndReducesAFullBlock : Prop :=
  (∀ (e : Elem) (s : State), s.Inv → ∃ t : State,
    exec (.push e) s = .next t ∧ t.res = none ∧ t.input = s.input ∧
    (if s.cnt.val = 359 then
      t.c0.toNat = (s.c0.toNat + e.toNat) % 0xFFFFFFFF ∧
      t.c1.toNat = (s.c1.toNat + (s.c0.toNat + e.toNat)) % 0xFFFFFFFF ∧
      t.cnt.val = 0 ∧ t.nred = s.nred + 1 ∧ Reduced t.c0 ∧ Reduced t.c1
    else
      t.c0.toNat = s.c0.toNat + e.toNat ∧
      t.c1.toNat = s.c1.toNat + (s.c0.toNat + e.toNat) ∧
      t.cnt.val = s.cnt.val + 1 ∧ t.nred = s.nred)) ∧
  (∀ w : CmdWord, opOf w = 0b01#2 → decode w = .push (dataOf w))

/-- R103: PUSHB b has exactly the effect of PUSH of the element 0x000000bb, and completes from every state of the
invariant. `op = 10` selects it, with `data[7:0]` its byte. -/
def Obligations.PushbIsPushOfTheZeroExtendedByte : Prop :=
  (∀ (b : Byte) (s : State), exec (.pushb b) s = exec (.push (BitVec.ofNat 32 b.toNat)) s) ∧
  (∀ (b : Byte) (s : State), s.Inv → ∃ t : State,
    exec (.pushb b) s = .next t ∧ t.res = none ∧ t.input = s.input ∧
    (if s.cnt.val = 359 then
      t.c0.toNat = (s.c0.toNat + b.toNat) % 0xFFFFFFFF ∧
      t.c1.toNat = (s.c1.toNat + (s.c0.toNat + b.toNat)) % 0xFFFFFFFF ∧
      t.cnt.val = 0 ∧ t.nred = s.nred + 1
    else
      t.c0.toNat = s.c0.toNat + b.toNat ∧
      t.c1.toNat = s.c1.toNat + (s.c0.toNat + b.toNat) ∧
      t.cnt.val = s.cnt.val + 1 ∧ t.nred = s.nred)) ∧
  (∀ w : CmdWord, opOf w = 0b10#2 → decode w = .pushb ((dataOf w).extractLsb' 0 8))

/-- R104: FIN completes; it reduces exactly when a block is open, emits `(c1 << 32) | c0` of what that leaves, and does
not clear; a second FIN directly after emits the same and changes nothing; directly after CLR it emits 0; the
response's halves are each at most 0xFFFFFFFE. `op = 11` selects it. -/
def Obligations.FinClosesTheBlockAndEmits : Prop :=
  (∀ s : State, s.BlockEnd → ∃ (t : State) (v : Result),
    exec .fin s = .next t ∧ t.res = some v ∧ v = (t.c1 <<< 32) ||| t.c0 ∧ t.input = s.input ∧
    (if s.cnt.val = 0 then t.c0 = s.c0 ∧ t.c1 = s.c1 ∧ t.cnt = s.cnt ∧ t.nred = s.nred
     else t.c0.toNat = s.c0.toNat % 0xFFFFFFFF ∧ t.c1.toNat = s.c1.toNat % 0xFFFFFFFF ∧ t.cnt.val = 0 ∧
       t.nred = s.nred + 1) ∧
    exec .fin t = .next t ∧
    (resultHi v).toNat ≤ 0xFFFFFFFE ∧ (resultLo v).toNat ≤ 0xFFFFFFFE) ∧
  (∀ s t : State, exec .clr s = .next t → exec .fin t = .next { t with res := some 0#64 }) ∧
  (∀ w : CmdWord, opOf w = 0b11#2 → decode w = .fin)

/-- R130: no command and no step can fault or be refused: there is always a next state. -/
def Obligations.EveryStepHasANextState : Prop :=
  (∀ (i : Instr) (s : State), ∃ t : State, exec i s = .next t) ∧ ∀ s : State, ∃ t : State, step s = .next t

/-! ### The micro-operations -/

/-- R83: ABSORB, on every state: both additions modulo 2^64, the second with the value just written, and the count one
up; on the states of the reachable-state invariant no addition wraps, and the sums are exact; a zero element leaves
`c0` and still adds it to `c1`. -/
def Obligations.AbsorbAddsTheNewSum : Prop :=
  (∀ (e : Elem) (s : State),
    (absorb e s).c0.toNat = (s.c0.toNat + e.toNat) % 2 ^ 64 ∧
    (absorb e s).c1.toNat = (s.c1.toNat + (absorb e s).c0.toNat) % 2 ^ 64 ∧
    (absorb e s).cnt.val = s.cnt.val + 1) ∧
  (∀ (e : Elem) (s : State), s.Inv →
    (absorb e s).c0.toNat = s.c0.toNat + e.toNat ∧
    (absorb e s).c1.toNat = s.c1.toNat + (s.c0.toNat + e.toNat)) ∧
  ∀ s : State, (absorb 0#32 s).c0 = s.c0 ∧ (absorb 0#32 s).c1 = s.c1 + s.c0

/-- R84: REDUCE gives both accumulators' canonical residues, so a multiple of 0xFFFFFFFF becomes 0; `cnt` becomes 0, the
ghost count goes one up, and nothing else changes; a reduced accumulator keeps its value. -/
def Obligations.ReduceLeavesCanonicalResidues : Prop :=
  ∀ s : State,
    (reduce s).c0.toNat = s.c0.toNat % 0xFFFFFFFF ∧ (reduce s).c1.toNat = s.c1.toNat % 0xFFFFFFFF ∧
    (reduce s).cnt.val = 0 ∧ (reduce s).nred = s.nred + 1 ∧ (reduce s).res = s.res ∧ (reduce s).input = s.input ∧
    Reduced (reduce s).c0 ∧ Reduced (reduce s).c1 ∧
    (0xFFFFFFFF ∣ s.c0.toNat → (reduce s).c0 = 0#64) ∧ (0xFFFFFFFF ∣ s.c1.toNat → (reduce s).c1 = 0#64) ∧
    (Reduced s.c0 → (reduce s).c0 = s.c0) ∧ (Reduced s.c1 → (reduce s).c1 = s.c1)

/-- R70 and the packing property quoted in R85: the response of a FIN has the final `c1` in bits 63:32 and the final
`c0` in bits 31:0, and neither half is 0xFFFFFFFF. R22 (`BlockEnd`) is the premise, as R70 says. -/
def Obligations.ResponseHalvesAreTheFinalAccumulators : Prop :=
  ∀ s t : State, s.BlockEnd → exec .fin s = .next t → ∃ v : Result, t.res = some v ∧
    (resultHi v).toNat = t.c1.toNat ∧ (resultLo v).toNat = t.c0.toNat ∧
    resultHi v ≠ 0xFFFFFFFF#32 ∧ resultLo v ≠ 0xFFFFFFFF#32

/-- R85's derivation: on a reduced pair the shift loses no bit and the OR joins disjoint fields. -/
def Obligations.PackIsTheWeightedSum : Prop :=
  ∀ s : State, Reduced s.c0 → Reduced s.c1 → (pack s).toNat = s.c1.toNat * 2 ^ 32 + s.c0.toNat

/-- R90's derivation: the remainder is that of the high half plus the low half, for every 64-bit value; the engine's
remainder is that one. -/
def Obligations.ReductionFoldsTheHalves : Prop :=
  ∀ x : Acc, (x % modAcc).toNat = (x.toNat / 2 ^ 32 + x.toNat % 2 ^ 32) % 0xFFFFFFFF

/-! ### Encoding -/

/-- R60, R62: a word is its `op` over its `data`; PUSH's element is all of `data`; PUSHB's is `data[7:0]` widened with
zeros, so it never exceeds 0xFF; CLR and FIN have no operand. -/
def Obligations.OperandsOfAWord : Prop :=
  ∀ w : CmdWord,
    w.toNat = (opOf w).toNat * 2 ^ 32 + (dataOf w).toNat ∧
    (elementOf w).toNat = w.toNat % 2 ^ 32 ∧
    (byteOf w).toNat = w.toNat % 2 ^ 8 ∧
    (elementOfByte (byteOf w)).toNat = w.toNat % 2 ^ 8 ∧
    decode w =
      (if opOf w = 0b00#2 then .clr
       else if opOf w = 0b01#2 then .push (BitVec.ofNat 32 w.toNat)
       else if opOf w = 0b10#2 then .pushb (BitVec.ofNat 8 w.toNat)
       else .fin)

/-- R63, R65: every word decodes to the row whose match it has under the mask, and to no other; the canonical words are
those of the table. -/
def Obligations.DecoderFollowsTheOpcodeMap : Prop :=
  (∀ w : CmdWord, w &&& 0x300000000#34 = opMatch (decode w)) ∧
  (∀ w : CmdWord, (decode w = .clr ↔ w &&& 0x300000000#34 = 0x000000000#34) ∧
    ((∃ e, decode w = .push e) ↔ w &&& 0x300000000#34 = 0x100000000#34) ∧
    ((∃ b, decode w = .pushb b) ↔ w &&& 0x300000000#34 = 0x200000000#34) ∧
    (decode w = .fin ↔ w &&& 0x300000000#34 = 0x300000000#34)) ∧
  encode .clr = 0x000000000#34 ∧ encode .fin = 0x300000000#34 ∧
  (∀ e : Elem, encode (.push e) = 0x100000000#34 ||| e.setWidth 34) ∧
  ∀ b : Byte, encode (.pushb b) = 0x200000000#34 ||| b.setWidth 34

/-- The decoder reads back every command from its canonical word, operands at every value, and the encoder gives back
every word with its ignored bits (R66) cleared. -/
def Obligations.DecodeOfEncodeIsTheCommand : Prop :=
  (∀ i : Instr, i.wf = true → decode (encode i) = i) ∧
  (∀ i j : Instr, encode i = encode j → i = j) ∧
  ∀ w : CmdWord, encode (decode w) =
    w &&& (if opOf w = 0b01#2 then 0x3FFFFFFFF#34 else if opOf w = 0b10#2 then 0x3000000FF#34 else 0x300000000#34)

/-- R66: two words that differ only in ignored bits have the same behaviour, from every state, in state and output. -/
def Obligations.IgnoredBitsChangeNothing : Prop :=
  ∀ (s : State) (rest : List Input) (op : OpField) (d d' : BitVec 32),
    (op = 0b00#2 ∨ op = 0b11#2 ∨ (op = 0b10#2 ∧ d.extractLsb' 0 8 = d'.extractLsb' 0 8)) →
      step (s.load (wordInput (wordOf op d) :: rest)) = step (s.load (wordInput (wordOf op d') :: rest))

/-- R67's derivation: a PUSHB word with a non-zero `data[31:8]` absorbs `zext_32(data[7:0])` only; with such a `data` it
is not the PUSH of it. -/
def Obligations.PushbWordIsNotAPushOfItsData : Prop :=
  ∀ (s : State) (rest : List Input) (d : BitVec 32),
    step (s.load (wordInput (wordOf 0b10#2 d) :: rest)) =
      exec (.push (BitVec.ofNat 32 (d.toNat % 256))) (s.load rest) ∧
    (256 ≤ d.toNat → decode (wordOf 0b10#2 d) ≠ decode (wordOf 0b01#2 d) ∧
      decode (wordOf 0b10#2 d) = decode (wordOf 0b10#2 (BitVec.ofNat 32 (d.toNat % 256))))

/-- Words written out from the spec's tables and examples, and the commands they stand for (R63, R67,
spec/95_test_vectors.md V12, V13, V15, V16, P5); a number of more than 34 bits is no word (notes/assumptions/7.md). -/
def Obligations.WordsOfTheSpecDecode : Prop :=
  decodeTableWord 40 0x000000000 = some .clr ∧ decodeTableWord 40 0x0DEADBEEF = some .clr ∧
  decodeTableWord 40 0x100000003 = some (.push 3#32) ∧ decodeTableWord 40 0x1FFFFFFFE = some (.push 0xFFFFFFFE#32) ∧
  decodeTableWord 40 0x200000068 = some (.pushb 0x68#8) ∧ decodeTableWord 40 0x2FFFFFF80 = some (.pushb 0x80#8) ∧
  decodeTableWord 40 0x300000000 = some .fin ∧ decodeTableWord 40 0x3DEADBEEF = some .fin ∧
  decodeTableWord 40 0x400000000 = none

/-! ### The step -/

/-- A step runs the decoded command: with a word presented and no reset, the step is `exec` of what the word decodes to,
which is well formed, on the state with that one input taken (notes/assumptions/1.md, 5.md). -/
def Obligations.StepRunsTheDecodedCommand : Prop :=
  (∀ (s : State) (w : CmdWord) (rest : List Input), s.input = { reset := false, cmd := some w } :: rest →
    (decode w).wf = true ∧ step s = exec (decode w) { s with input := rest }) ∧
  ∀ (s : State) (n w : Nat) (i : Instr), decodeTableWord n w = some i → step (s.withFetchWord n w) = exec i s

/-- One step takes exactly one of the host's inputs, in the order driven, and no command changes what is to come; where
the host's sequence has ended the step is idle. How the host's inputs are held, and that their end means idle, is the
model's choice (notes/assumptions/1.md). -/
def Obligations.StepTakesOneInput : Prop :=
  (∀ s : State, s.input = [] → step s = .next { s with res := none }) ∧
  (∀ s t : State, step s = .next t → t.input = s.input.tail) ∧
  ∀ (i : Instr) (s t : State), exec i s = .next t → t.input = s.input

/-- R44: the response channel carries a result exactly on the steps that execute FIN. -/
def Obligations.ResponseExactlyOnFinSteps : Prop :=
  ∀ s t : State, step s = .next t →
    (t.res.isSome = true ↔
      ∃ (w : CmdWord) (rest : List Input), s.input = { reset := false, cmd := some w } :: rest ∧ decode w = .fin)

/-- What each command leaves unchanged, from every state (R21, R101 to R104; there is no memory, R40): CLR, PUSH and PUSHB
leave the host's coming inputs and emit nothing; PUSH and PUSHB leave the ghost count except where they fill the
block; FIN leaves the inputs, and every register where no block is open; only a FIN emits. -/
def Obligations.FramesOfTheCommands : Prop :=
  (∀ s t : State, exec .clr s = .next t → t.input = s.input ∧ t.res = none) ∧
  (∀ (e : Elem) (s t : State), exec (.push e) s = .next t →
    t.input = s.input ∧ t.res = none ∧ (s.cnt.val < 359 → t.nred = s.nred)) ∧
  (∀ (b : Byte) (s t : State), exec (.pushb b) s = .next t →
    t.input = s.input ∧ t.res = none ∧ (s.cnt.val < 359 → t.nred = s.nred)) ∧
  (∀ s t : State, exec .fin s = .next t →
    t.input = s.input ∧ (s.cnt.val = 0 → t.c0 = s.c0 ∧ t.c1 = s.c1 ∧ t.cnt = s.cnt ∧ t.nred = s.nred))

/-- R24: a PUSH or PUSHB counts one element, and at the 360th the block is reduced and the count returns to 0 in the same
step; from every state. Between steps the count is 0 to 359. -/
def Obligations.CountGoesRoundTheBlock : Prop :=
  (∀ s : State, s.cnt.val ≤ 359) ∧
  (∀ (e : Elem) (s t : State), exec (.push e) s = .next t → t.cnt.val = (s.cnt.val + 1) % 360 ∧
    (s.cnt.val = 359 → t.nred = s.nred + 1 ∧ Reduced t.c0 ∧ Reduced t.c1)) ∧
  (∀ (b : Byte) (s t : State), exec (.pushb b) s = .next t → t.cnt.val = (s.cnt.val + 1) % 360 ∧
    (s.cnt.val = 359 → t.nred = s.nred + 1 ∧ Reduced t.c0 ∧ Reduced t.c1)) ∧
  ∀ s t : State, (exec .clr s = .next t ∨ exec .fin s = .next t) → t.cnt.val = 0

/-- R30: CLR and reset set the ghost count to 0 and every REDUCE increments it by 1; it is read by no command and no output
depends on it: two runs of the same inputs from states that differ in it (and in what the response channel carried
before) give the same registers and the same responses. -/
def Obligations.GhostCountIsReadByNothing : Prop :=
  (∀ s : State, (clear s).nred = 0 ∧ (applyReset s).nred = 0 ∧ (reduce s).nred = s.nred + 1) ∧
  ∀ (ins : List Input) (s s' : State), s.SameRegs s' →
    (runInputs ins s).2 = (runInputs ins s').2 ∧ (runInputs ins s).1.SameRegs (runInputs ins s').1

/-- R45: CLR, FIN and idle are idempotent; PUSH and PUSHB never are, since the second absorbs a second element. -/
def Obligations.OnlyClrFinIdleAreIdempotent : Prop :=
  (∀ s t : State, exec .clr s = .next t → exec .clr t = .next t) ∧
  (∀ s t : State, exec .fin s = .next t → exec .fin t = .next t) ∧
  (∀ s : State, idle (idle s) = idle s) ∧
  (∀ (e : Elem) (s t : State), exec (.push e) s = .next t → exec (.push e) t ≠ .next t) ∧
  ∀ (b : Byte) (s t : State), exec (.pushb b) s = .next t → exec (.pushb b) t ≠ .next t

/-- R46: commands execute strictly in order, each to completion before the next: a run of two sequences joined is the run
of the second from the state the first leaves, and the responses are joined. -/
def Obligations.RunsCompose : Prop :=
  ∀ (a b : List Input) (s : State),
    runInputs (a ++ b) s = ((runInputs b (runInputs a s).1).1, (runInputs a s).2 ++ (runInputs b (runInputs a s).1).2)

/-! ### Invariants -/

/-- The reachable-state invariant (R32, derived there) and the block-end invariant (R22) hold after reset, whatever the
host is about to drive. -/
def Obligations.ResetStateIsGood : Prop :=
  ∀ ins : List Input, (State.reset.load ins).Inv ∧ (State.reset.load ins).BlockEnd ∧ (State.reset.load ins).Cleared

/-- R32 and R23 (derived there): every step, from every state of the invariant and whatever the host drives, leads to a
state of the invariant. -/
def Obligations.EveryStepKeepsTheBounds : Prop :=
  ∀ s t : State, s.Inv → step s = .next t → t.Inv

/-- R22: with `cnt = 0` both accumulators are reduced: it holds after reset, every step keeps it, and they are never
reduced mid-block: a step that adds to the count executes no REDUCE. -/
def Obligations.ClosedBlocksAreReduced : Prop :=
  State.reset.BlockEnd ∧
  (∀ s t : State, s.BlockEnd → step s = .next t → t.BlockEnd) ∧
  ∀ s t : State, step s = .next t → s.cnt.val < t.cnt.val → t.nred = s.nred

/-- R23, R91 (derived there): from every state of the invariant both additions of ABSORB are exact, and the sums are at
most 0x168FFFFFE96 and 0xFF3CFFFEFF5A; some state of the invariant attains both. -/
def Obligations.NoAdditionWraps : Prop :=
  (∀ (e : Elem) (s : State), s.Inv →
    (absorb e s).c0.toNat = s.c0.toNat + e.toNat ∧
    (absorb e s).c1.toNat = s.c1.toNat + (s.c0.toNat + e.toNat) ∧
    (absorb e s).c0.toNat ≤ 0x168FFFFFE96 ∧ (absorb e s).c1.toNat ≤ 0xFF3CFFFEFF5A) ∧
  ∃ s : State, s.Inv ∧
    (absorb 0xFFFFFFFF#32 s).c0.toNat = 0x168FFFFFE96 ∧ (absorb 0xFFFFFFFF#32 s).c1.toNat = 0xFF3CFFFEFF5A

/-- R32 (derived there): every state reached from reset, by any sequence of commands, idle steps and resets, satisfies the
reachable-state invariant and the block-end invariant. -/
def Obligations.ReachableStatesAreGood : Prop :=
  ∀ ins : List Input, (runInputs ins State.reset).1.Inv ∧ (runInputs ins State.reset).1.BlockEnd

/-! ### The checksum -/

/-- R86: the empty sequence has no block and the checksum 0; its invocation, from every state, emits 0 and reduces
nothing. -/
def Obligations.EmptySequenceGivesZero : Prop :=
  checksum [] = 0#64 ∧ blocks [] = [] ∧
  ∀ s : State, (runCommands (invocation []) s).2 = [0#64] ∧ (runCommands (invocation []) s).1.nred = 0

/-- R80's partition and R87 (derived there): the blocks of S, joined, are S; each has 1 to 360 elements and all but the
last exactly 360; there are ceil(n / 360) of them, so 1 for n = 360 and 2 for n = 361. -/
def Obligations.BlocksPartitionTheSequence : Prop :=
  (∀ S : List Elem, (blocks S).flatten = S ∧ (blocks S).length = blockCount S.length ∧
    (∀ K ∈ blocks S, 1 ≤ K.length ∧ K.length ≤ 360) ∧ (∀ K ∈ (blocks S).dropLast, K.length = 360)) ∧
  (∀ S : List Elem, S.length = 360 → (blocks S).length = 1) ∧
  ∀ S : List Elem, S.length = 361 → (blocks S).length = 2

/-- R88 (derived there): the closed form; the block size does not appear. -/
def Obligations.ChecksumClosedForm : Prop :=
  ∀ S : List Elem, (checksum S).toNat = (sumB S % 0xFFFFFFFF) * 2 ^ 32 + sumA S % 0xFFFFFFFF

/-- R105 (derived there): the state after a push sequence from the cleared state, PUSHBs and idle steps among it: `cnt` =
n mod 360 and `nred` = floor(n / 360); the accumulators are the unreduced sums of the last `cnt` elements on top of
the reduced pair of the elements before them; modulo 0xFFFFFFFF they are the halves of the checksum; no response. -/
def Obligations.StateAfterAPushSequence : Prop :=
  ∀ (ins : List Input) (S : List Elem) (s : State), pushedElements ins = some S → s.Cleared →
    let t := (runInputs ins s).1
    let r := S.length % 360
    (runInputs ins s).2 = [] ∧ t.cnt.val = r ∧ t.nred = S.length / 360 ∧
    (t.c0.toNat, t.c1.toNat) = blockSums (S.drop (S.length - r)) (checksumPair (S.take (S.length - r))) ∧
    (resultLo (checksum S)).toNat = t.c0.toNat % 0xFFFFFFFF ∧ (resultHi (checksum S)).toNat = t.c1.toNat % 0xFFFFFFFF

/-- R106 (derived there), the invocation theorem: from any state whatever, CLR, then pushes of S (PUSHBs and idle steps
among them), then FIN, emits exactly one response, on the FIN step, and it is `checksum(S)` of R80; the run executes
ceil(n / 360) reductions; from the reset state the CLR may be omitted. -/
def Obligations.InvocationEmitsTheChecksum : Prop :=
  ∀ (ins : List Input) (S : List Elem), pushedElements ins = some S →
    (∀ s : State,
      let before := runInputs (wordInput (encode .clr) :: ins) s
      let whole := runInputs (wordInput (encode .clr) :: (ins ++ [wordInput (encode .fin)])) s
      before.2 = [] ∧ whole.2 = [checksum S] ∧ whole.1.res = some (checksum S) ∧
      whole.1.nred = blockCount S.length ∧ whole.1.cnt.val = 0) ∧
    (runInputs (ins ++ [wordInput (encode .fin)]) State.reset).2 = [checksum S]

/-- R107 (derived there): FIN in mid-stream is transparent: after a CLR, with a FIN after each of any number of
sequences, the k-th response is the checksum of the first k sequences joined; each sequence executes its own number of
reductions. -/
def Obligations.InterposedFinsAreTransparent : Prop :=
  ∀ (L : List (List Elem)) (s : State),
    let r := runCommands (.clr :: L.flatMap fun S => pushes S ++ [.fin]) s
    r.2 = (List.range L.length).map (fun k => checksum (L.take (k + 1)).flatten) ∧
    r.1.nred = (L.map fun S => blockCount S.length).sum

/-- R108 (derived there): without a CLR, an invocation continues the one before it. -/
def Obligations.MissingClrContinuesTheSum : Prop :=
  ∀ (P S : List Elem) (s : State),
    (runCommands (pushes S ++ [.fin]) (runCommands (invocation P) s).1).2 = [checksum (P ++ S)]

/-- R158 (derived there): a second FIN, with nothing but idle steps between, emits the same value again. -/
def Obligations.LostResponseCanBeReadAgain : Prop :=
  ∀ (n : Nat) (s : State), ∃ v : Result,
    (runInputs (wordInput (encode .fin) :: (List.replicate n idleInput ++ [wordInput (encode .fin)])) s).2 = [v, v]

/-- R160 and R106: an invocation over n elements takes n + 2 commands, and each step of it has a next state: the host's
own `run` of that many steps ends in the state of `runCommands`. -/
def Obligations.InvocationTakesNPlusTwoSteps : Prop :=
  ∀ (S : List Elem) (s : State),
    Host.Core.run core (S.length + 2) (s.load (commandInputs (invocation S))) =
      .next (runCommands (invocation S) s).1

/-! ### The adapters -/

/-- R120: the byte adapter keeps length and order, and each element is its byte's value; n bytes make ceil(n / 360)
blocks. -/
def Obligations.BytesBecomeElementsOneForOne : Prop :=
  ∀ B : List Byte, (elementsOfBytes B).length = B.length ∧
    (elementsOfBytes B).map BitVec.toNat = B.map BitVec.toNat ∧
    (∀ e ∈ elementsOfBytes B, e.toNat ≤ 255) ∧ (blocks (elementsOfBytes B)).length = blockCount B.length

/-- R121 (derived there): the invocation of the byte adapter emits `checksum_of_bytes`; zero bytes give 0 at any length and
a leading zero is never detected; a trailing zero is detected exactly where the sum is no multiple of 0xFFFFFFFF. -/
def Obligations.ByteInvocationEmitsTheByteChecksum : Prop :=
  (∀ (B : List Byte) (s : State), (runCommands (byteInvocation B) s).2 = [checksumOfBytes B]) ∧
  (∀ n : Nat, checksumOfBytes (List.replicate n 0#8) = 0#64) ∧
  (∀ B : List Byte, checksumOfBytes (0#8 :: B) = checksumOfBytes B) ∧
  ∀ B : List Byte, checksumOfBytes (B ++ [0#8]) ≠ checksumOfBytes B ↔ ¬ 0xFFFFFFFF ∣ sumA (elementsOfBytes B)

/-- R123, R122 (derived there): under every encoding, the invocation of the text macro is that of the byte macro on the
text's bytes, and emits `checksum_of_text`, which is `checksum_of_bytes` of those bytes. -/
def Obligations.TextIsItsBytes : Prop :=
  (∀ (enc : TextEncoding) (t : List Char) (s : State),
    (runCommands (expand enc (.checksumText t)) s).2 = [checksumOfText enc t] ∧
    (runCommands (expand enc (.checksumText t)) s).2 = (runCommands (byteInvocation (enc t)) s).2) ∧
  ∀ (enc : TextEncoding) (b : Nat), expand enc (.pusht b) = expand enc (.pushb b)

/-! ### What the checksum does not detect, and what it does -/

/-- R92 (derived there): sequences with the same two sums modulo 0xFFFFFFFF have the same checksum and only they; so 0 in
the place of 0xFFFFFFFF, and the swap of the two, are never detected. -/
def Obligations.CongruentElementsAreNotDistinguished : Prop :=
  (∀ S T : List Elem, checksum S = checksum T ↔
    (sumA S % 0xFFFFFFFF = sumA T % 0xFFFFFFFF ∧ sumB S % 0xFFFFFFFF = sumB T % 0xFFFFFFFF)) ∧
  (∀ P Q : List Elem, checksum (P ++ 0x00000000#32 :: Q) = checksum (P ++ 0xFFFFFFFF#32 :: Q)) ∧
  ∀ P M Q : List Elem,
    checksum (P ++ 0x00000000#32 :: (M ++ 0xFFFFFFFF#32 :: Q)) =
      checksum (P ++ 0xFFFFFFFF#32 :: (M ++ 0x00000000#32 :: Q))

/-- R92 (derived there): altering one byte always changes the low half of the byte checksum. -/
def Obligations.AlteredByteChangesTheLowHalf : Prop :=
  ∀ (P Q : List Byte) (a b : Byte), a ≠ b →
    resultLo (checksumOfBytes (P ++ a :: Q)) ≠ resultLo (checksumOfBytes (P ++ b :: Q))

/-- R92 (derived there): swapping two bytes at a distance d leaves the high half exactly where d times their difference is
a multiple of 0xFFFFFFFF; for unequal bytes that needs d to be at least 16843009. -/
def Obligations.SwappedBytesChangeTheHighHalf : Prop :=
  ∀ (P M Q : List Byte) (a b : Byte),
    (resultHi (checksumOfBytes (P ++ a :: (M ++ b :: Q))) = resultHi (checksumOfBytes (P ++ b :: (M ++ a :: Q))) ↔
      (0xFFFFFFFF : Int) ∣ ((M.length : Int) + 1) * ((a.toNat : Int) - (b.toNat : Int))) ∧
    (a ≠ b → M.length + 1 < 16843009 →
      resultHi (checksumOfBytes (P ++ a :: (M ++ b :: Q))) ≠ resultHi (checksumOfBytes (P ++ b :: (M ++ a :: Q))))

/-! ### The assembler -/

/-- R68: the word each command emits, and the error where the operand is outside its range; never truncated. -/
def Obligations.AssemblerEmitsOrRejects : Prop :=
  ∀ enc : TextEncoding,
    assemble enc .clr = .ok [0x000000000#34] ∧ assemble enc .fin = .ok [0x300000000#34] ∧
    (∀ e : Nat, assemble enc (.push e) =
      if e ≤ 0xFFFFFFFF then .ok [0x100000000#34 ||| BitVec.ofNat 34 e] else .error .outOfRange) ∧
    (∀ b : Nat, assemble enc (.pushb b) =
      if b ≤ 255 then .ok [0x200000000#34 ||| BitVec.ofNat 34 b] else .error .outOfRange)

/-- R69: the expansions of the pseudo-commands, in words, for operands in range (R68). -/
def Obligations.MacrosExpand : Prop :=
  ∀ enc : TextEncoding,
    (∀ b : Nat, b ≤ 255 → assemble enc (.pusht b) = .ok [0x200000000#34 ||| BitVec.ofNat 34 b]) ∧
    (∀ es : List Nat, (∀ e ∈ es, e ≤ 0xFFFFFFFF) → assemble enc (.checksum es) =
      .ok (0x000000000#34 :: (es.map (fun e => 0x100000000#34 ||| BitVec.ofNat 34 e) ++ [0x300000000#34]))) ∧
    (∀ bs : List Nat, (∀ b ∈ bs, b ≤ 255) → assemble enc (.checksumBytes bs) =
      .ok (0x000000000#34 :: (bs.map (fun b => 0x200000000#34 ||| BitVec.ofNat 34 b) ++ [0x300000000#34]))) ∧
    ∀ t : List Char, assemble enc (.checksumText t) =
      .ok (0x000000000#34 :: ((enc t).map (fun b => 0x200000000#34 ||| b.setWidth 34) ++ [0x300000000#34]))
end

