-- ==== Sys2Proof/Laws/Operands.lean ====
section
/-!
SUPPORT. The fields of a word and the operands taken from them: one lemma per function.
-/

namespace Sys2Proof.Machine

@[simp] theorem opOf_wordOf (op : OpField) (d : BitVec 32) : opOf (wordOf op d) = op :=
  BitVec.extractLsb'_append_eq_left

@[simp] theorem dataOf_wordOf (op : OpField) (d : BitVec 32) : dataOf (wordOf op d) = d :=
  BitVec.extractLsb'_append_eq_right

/-- A word is its two fields put together again. -/
@[simp] theorem wordOf_fields (w : CmdWord) : wordOf (opOf w) (dataOf w) = w :=
  (BitVec.extractLsb'_append_extractLsb'_eq_extractLsb' (x := w) rfl).trans BitVec.extractLsb'_eq_self

theorem append_and {m n : Nat} (a c : BitVec m) (b d : BitVec n) : (a ++ b) &&& (c ++ d) = (a &&& c) ++ (b &&& d) := by
  apply BitVec.eq_of_getLsbD_eq
  intro i _
  simp only [BitVec.getLsbD_and, BitVec.getLsbD_append]
  split <;> simp

/-- A bitwise AND of words is that of their fields. -/
theorem wordOf_and (a c : OpField) (b d : BitVec 32) : wordOf a b &&& wordOf c d = wordOf (a &&& c) (b &&& d) :=
  append_and a c b d

@[simp] theorem elementOf_wordOf (op : OpField) (d : BitVec 32) : elementOf (wordOf op d) = d :=
  dataOf_wordOf op d

@[simp] theorem byteOf_wordOf (op : OpField) (d : BitVec 32) : byteOf (wordOf op d) = d.extractLsb' 0 8 := by
  simp [byteOf]

@[simp] theorem elementOfByte_toNat (b : Byte) : (elementOfByte b).toNat = b.toNat := by
  have := b.isLt
  simp [elementOfByte]; omega

@[simp] theorem accOfElement_toNat (e : Elem) : (accOfElement e).toNat = e.toNat := by
  have := e.isLt
  simp [accOfElement]; omega

@[simp] theorem accOfElement_zero : accOfElement 0#32 = 0#64 := rfl

/-- The low byte of a widened byte is the byte. -/
@[simp] theorem low_elementOfByte (b : Byte) : (elementOfByte b).extractLsb' 0 8 = b := by
  apply BitVec.eq_of_toNat_eq
  have := b.isLt
  simp; omega

theorem elementOfByte_injective {a b : Byte} (h : elementOfByte a = elementOfByte b) : a = b := by
  rw [← low_elementOfByte a, h, low_elementOfByte]

end Sys2Proof.Machine
end

