-- ==== Sys2Proof/Laws/State.lean ====
section
/-!
SUPPORT. One lemma per field per update of the state, each true by rfl, so that no later proof unfolds a record
update.
-/

namespace Sys2Proof.Machine

/-! ### reset -/

@[simp] theorem State.reset_c0 : State.reset.c0 = 0#64 := rfl
@[simp] theorem State.reset_c1 : State.reset.c1 = 0#64 := rfl
@[simp] theorem State.reset_cnt : State.reset.cnt = 0 := rfl
@[simp] theorem State.reset_nred : State.reset.nred = 0 := rfl
@[simp] theorem State.reset_res : State.reset.res = none := rfl
@[simp] theorem State.reset_input : State.reset.input = [] := rfl

/-! ### absorb -/

@[simp] theorem absorb_c0 (e : Elem) (s : State) : (absorb e s).c0 = s.c0 + accOfElement e := rfl
@[simp] theorem absorb_c1 (e : Elem) (s : State) : (absorb e s).c1 = s.c1 + (s.c0 + accOfElement e) := rfl
@[simp] theorem absorb_cnt (e : Elem) (s : State) : (absorb e s).cnt = s.cnt.succ := rfl

/-! ### reduce -/

@[simp] theorem reduce_c0 (s : State) : (reduce s).c0 = s.c0 % modAcc := rfl
@[simp] theorem reduce_c1 (s : State) : (reduce s).c1 = s.c1 % modAcc := rfl
@[simp] theorem reduce_cnt (s : State) : (reduce s).cnt = 0 := rfl
@[simp] theorem reduce_nred (s : State) : (reduce s).nred = s.nred + 1 := rfl
@[simp] theorem reduce_res (s : State) : (reduce s).res = s.res := rfl
@[simp] theorem reduce_input (s : State) : (reduce s).input = s.input := rfl

/-! ### respond -/

@[simp] theorem respond_c0 (r : Option Result) (s : State) : (respond r s).c0 = s.c0 := rfl
@[simp] theorem respond_c1 (r : Option Result) (s : State) : (respond r s).c1 = s.c1 := rfl
@[simp] theorem respond_cnt (r : Option Result) (s : State) : (respond r s).cnt = s.cnt := rfl
@[simp] theorem respond_nred (r : Option Result) (s : State) : (respond r s).nred = s.nred := rfl
@[simp] theorem respond_res (r : Option Result) (s : State) : (respond r s).res = r := rfl
@[simp] theorem respond_input (r : Option Result) (s : State) : (respond r s).input = s.input := rfl

/-! ### clear -/

@[simp] theorem clear_c0 (s : State) : (clear s).c0 = 0#64 := rfl
@[simp] theorem clear_c1 (s : State) : (clear s).c1 = 0#64 := rfl
@[simp] theorem clear_cnt (s : State) : (clear s).cnt = 0 := rfl
@[simp] theorem clear_nred (s : State) : (clear s).nred = 0 := rfl
@[simp] theorem clear_res (s : State) : (clear s).res = s.res := rfl
@[simp] theorem clear_input (s : State) : (clear s).input = s.input := rfl

/-! ### applyReset, idle -/

@[simp] theorem applyReset_eq (s : State) : applyReset s = respond none (clear s) := rfl
@[simp] theorem idle_eq (s : State) : idle s = respond none s := rfl

/-! ### takeInput -/

@[simp] theorem takeInput_c0 (s : State) : (takeInput s).c0 = s.c0 := rfl
@[simp] theorem takeInput_c1 (s : State) : (takeInput s).c1 = s.c1 := rfl
@[simp] theorem takeInput_cnt (s : State) : (takeInput s).cnt = s.cnt := rfl
@[simp] theorem takeInput_nred (s : State) : (takeInput s).nred = s.nred := rfl
@[simp] theorem takeInput_res (s : State) : (takeInput s).res = s.res := rfl
@[simp] theorem takeInput_input (s : State) : (takeInput s).input = s.input.tail := rfl

/-! ### load -/

@[simp] theorem load_c0 (ins : List Input) (s : State) : (s.load ins).c0 = s.c0 := rfl
@[simp] theorem load_c1 (ins : List Input) (s : State) : (s.load ins).c1 = s.c1 := rfl
@[simp] theorem load_cnt (ins : List Input) (s : State) : (s.load ins).cnt = s.cnt := rfl
@[simp] theorem load_nred (ins : List Input) (s : State) : (s.load ins).nred = s.nred := rfl
@[simp] theorem load_res (ins : List Input) (s : State) : (s.load ins).res = s.res := rfl
@[simp] theorem load_input (ins : List Input) (s : State) : (s.load ins).input = ins := rfl
@[simp] theorem load_load (a b : List Input) (s : State) : (s.load a).load b = s.load b := rfl
@[simp] theorem load_self (s : State) : s.load s.input = s := rfl
@[simp] theorem takeInput_load_cons (x : Input) (ins : List Input) (s : State) :
    takeInput (s.load (x :: ins)) = s.load ins := rfl
@[simp] theorem drivenInput_load_cons (x : Input) (ins : List Input) (s : State) :
    drivenInput (s.load (x :: ins)) = x := rfl

/-! ### withFetchWord -/

@[simp] theorem withFetchWord_eq (s : State) (n w : Nat) :
    s.withFetchWord n w = s.load (wordInput (BitVec.ofNat 34 w) :: s.input) := rfl

/-- Two states are equal when every field is. -/
theorem State.ext_fields {s t : State} (h0 : s.c0 = t.c0) (h1 : s.c1 = t.c1) (hk : s.cnt = t.cnt)
    (hn : s.nred = t.nred) (hr : s.res = t.res) (hi : s.input = t.input) : s = t := by
  cases s; cases t; simp_all

end Sys2Proof.Machine
end

