-- ==== Sys2Proof/Laws/Ops.lean ====
section
/-!
SUPPORT. What each shared operation does, said once.
-/

namespace Sys2Proof.Machine

@[simp] theorem modAcc_toNat : modAcc.toNat = 0xFFFFFFFF := rfl

/-- REDUCE on the numbers. -/
theorem reduce_c0_toNat (s : State) : (reduce s).c0.toNat = s.c0.toNat % 0xFFFFFFFF := by
  simp

theorem reduce_c1_toNat (s : State) : (reduce s).c1.toNat = s.c1.toNat % 0xFFFFFFFF := by
  simp

/-- What REDUCE leaves is reduced, whatever it found. -/
theorem reduce_reduced (s : State) : Reduced (reduce s).c0 ∧ Reduced (reduce s).c1 := by
  have h0 := Nat.mod_lt s.c0.toNat (y := 0xFFFFFFFF) (by omega)
  have h1 := Nat.mod_lt s.c1.toNat (y := 0xFFFFFFFF) (by omega)
  simp only [Reduced, reduce_c0_toNat, reduce_c1_toNat]
  omega

/-- One element where the block does not fill: ABSORB and no REDUCE. -/
theorem pushElement_inBlock {e : Elem} {s : State} (h : s.cnt.val < 359) :
    pushElement e s = { s with c0 := s.c0 + accOfElement e, c1 := s.c1 + (s.c0 + accOfElement e),
                               cnt := ⟨s.cnt.val + 1, by omega⟩ } := by
  have hk : ¬ BlockFull (absorb e s).cnt := by
    simp only [BlockFull, absorb_cnt, Fin.val_succ, Config.block]; omega
  simp only [pushElement, settle, dif_neg hk]
  rfl

/-- The block's last element: ABSORB, then REDUCE. -/
theorem pushElement_last {e : Elem} {s : State} (h : s.cnt.val = 359) :
    pushElement e s = reduce { s with c0 := s.c0 + accOfElement e, c1 := s.c1 + (s.c0 + accOfElement e) } := by
  have hk : BlockFull (absorb e s).cnt := by
    simp only [BlockFull, absorb_cnt, Fin.val_succ, Config.block]; omega
  simp only [pushElement, settle, dif_pos hk]
  rfl

/-- The count is below 359, or 359. -/
theorem cnt_cases (s : State) : s.cnt.val < 359 ∨ s.cnt.val = 359 := by
  have := s.cnt.isLt
  omega

@[simp] theorem pushElement_input (e : Elem) (s : State) : (pushElement e s).input = s.input := by
  rcases cnt_cases s with h | h
  · rw [pushElement_inBlock h]
  · rw [pushElement_last h]; rfl

@[simp] theorem pushElement_res (e : Elem) (s : State) : (pushElement e s).res = s.res := by
  rcases cnt_cases s with h | h
  · rw [pushElement_inBlock h]
  · rw [pushElement_last h]; rfl

theorem closeBlock_open {s : State} (h : s.cnt.val ≠ 0) : closeBlock s = reduce s := if_pos h

theorem closeBlock_closed {s : State} (h : s.cnt.val = 0) : closeBlock s = s := if_neg (by simpa using h)

@[simp] theorem closeBlock_input (s : State) : (closeBlock s).input = s.input := by
  unfold closeBlock; split <;> rfl

@[simp] theorem closeBlock_res (s : State) : (closeBlock s).res = s.res := by
  unfold closeBlock; split <;> rfl

@[simp] theorem closeBlock_cnt (s : State) : (closeBlock s).cnt = 0 := by
  unfold closeBlock
  split
  · rfl
  · rename_i h; exact Fin.ext (by simpa using h)

/-- Closing a block that is closed changes nothing. -/
@[simp] theorem closeBlock_closeBlock (s : State) : closeBlock (closeBlock s) = closeBlock s :=
  closeBlock_closed (by simp)

/-- PACK on the numbers, of a reduced pair. -/
theorem pack_toNat {s : State} (h0 : Reduced s.c0) (h1 : Reduced s.c1) :
    (pack s).toNat = s.c1.toNat * 2 ^ 32 + s.c0.toNat := by
  simp only [Reduced] at h0 h1
  simp only [pack, BitVec.toNat_or, BitVec.toNat_shiftLeft]
  rw [Nat.mod_eq_of_lt (by rw [Nat.shiftLeft_eq]; omega), ← Nat.shiftLeft_add_eq_or_of_lt (by omega), Nat.shiftLeft_eq]

/-! ### The bounds of R23 -/

theorem c0Bound_succ (k : Nat) : c0Bound (k + 1) = c0Bound k + 0xFFFFFFFF := by
  simp only [c0Bound]; omega

/-- k(k+1)/2 one further. -/
theorem c1Bound_succ (k : Nat) : c1Bound (k + 1) = c1Bound k + c0Bound (k + 1) := by
  have h : 0xFFFFFFFF * (k + 1) * (k + 1 + 1) = 0xFFFFFFFF * k * (k + 1) + 2 * (0xFFFFFFFF * (k + 1)) := by ring
  simp only [c1Bound, c0Bound, h]
  omega

theorem c0Bound_le_c0Bound {j k : Nat} (h : j ≤ k) : c0Bound j ≤ c0Bound k := by
  simp only [c0Bound]; omega

theorem c1Bound_le_c1Bound {j k : Nat} (h : j ≤ k) : c1Bound j ≤ c1Bound k := by
  induction h with
  | refl => exact le_rfl
  | step _ ih => rw [Nat.succ_eq_add_one, c1Bound_succ]; omega

theorem c0Bound_360 : c0Bound 360 = 0x168FFFFFE96 := rfl
theorem c1Bound_360 : c1Bound 360 = 0xFF3CFFFEFF5A := rfl

end Sys2Proof.Machine
end

