-- ==== Sys2Proof/Laws/PerInstr.lean ====
section
/-!
SUPPORT. What holds of every command as syntax, one lemma per constructor: the `op` field of its canonical word is its
own opcode, and its `data` field its own operand (spec/30_encoding.md rule R63).
-/

namespace Sys2Proof.Laws.CanonicalFields

/-- The two fields of a command's canonical word. -/
def Statement (i : Instr) : Prop :=
  Machine.opOf (encode i) = opcode i ∧ Machine.dataOf (encode i) = canonicalData i

theorem clr : Statement .clr := by simp [Statement, encode]
theorem push (e : Elem) : Statement (.push e) := by simp [Statement, encode]
theorem pushb (b : Byte) : Statement (.pushb b) := by simp [Statement, encode]
theorem fin : Statement .fin := by simp [Statement, encode]

end Sys2Proof.Laws.CanonicalFields
end

