-- ==== Sys2Proof/Laws/Step.lean ====
section
/-!
SUPPORT. What a step and a run can do, said once: the state each command, each input and each step leads to.
-/

namespace Sys2Proof.Machine

/-- The state a command leads to. -/
def afterCommand : Instr → State → State
  | .clr, s => respond none (clear s)
  | .push e, s => respond none (pushElement e s)
  | .pushb b, s => respond none (pushElement (elementOfByte b) s)
  | .fin, s => respond (some (pack (closeBlock s))) (closeBlock s)

/-- The state an input leads to. -/
def afterInput (x : Input) (s : State) : State :=
  if x.reset then applyReset s
  else
    match x.cmd with
    | none => idle s
    | some w => afterCommand (decode w) s

theorem exec_eq (i : Instr) (s : State) : exec i s = .next (afterCommand i s) := by cases i <;> rfl

theorem perform_eq (x : Input) (s : State) : perform x s = .next (afterInput x s) := by
  rcases x with ⟨_ | _, _ | w⟩
  · rfl
  · exact exec_eq _ _
  · rfl
  · rfl

theorem step_eq (s : State) : step s = .next (afterInput (drivenInput s) (takeInput s)) := perform_eq _ _

/-- A step with a next state led there by its input: the one inversion lemma of the step. -/
theorem step_next {s t : State} (h : step s = .next t) : t = afterInput (drivenInput s) (takeInput s) := by
  rw [step_eq] at h
  exact (Host.Outcome.next.inj h).symm

theorem exec_next {i : Instr} {s t : State} (h : exec i s = .next t) : t = afterCommand i s := by
  rw [exec_eq] at h
  exact (Host.Outcome.next.inj h).symm

/-- The ways an input can act: reset, idle, or a command. -/
theorem afterInput_cases (x : Input) (s : State) :
    (x.reset = true ∧ afterInput x s = respond none (clear s)) ∨
    (x.reset = false ∧ x.cmd = none ∧ afterInput x s = respond none s) ∨
    (∃ w, x.reset = false ∧ x.cmd = some w ∧ afterInput x s = afterCommand (decode w) s) := by
  rcases x with ⟨_ | _, _ | w⟩ <;> simp [afterInput]

@[simp] theorem afterCommand_input (i : Instr) (s : State) : (afterCommand i s).input = s.input := by
  cases i <;> simp [afterCommand]

@[simp] theorem afterInput_input (x : Input) (s : State) : (afterInput x s).input = s.input := by
  rcases afterInput_cases x s with ⟨_, h⟩ | ⟨_, _, h⟩ | ⟨w, _, _, h⟩ <;> simp [h]

@[simp] theorem afterInput_word (w : CmdWord) (s : State) : afterInput (wordInput w) s = afterCommand (decode w) s :=
  rfl

@[simp] theorem afterInput_idle (s : State) : afterInput idleInput s = respond none s := rfl

theorem run_succ (n : Nat) (s : State) :
    run (n + 1) s = ((run n (afterInput (drivenInput s) (takeInput s))).1,
      (afterInput (drivenInput s) (takeInput s)).res.toList ++ (run n (afterInput (drivenInput s) (takeInput s))).2) := by
  rw [run, step_eq]

@[simp] theorem runInputs_nil (s : State) : runInputs [] s = (s.load [], []) := rfl

/-- A run's first step, then the rest of it. -/
theorem runInputs_cons (x : Input) (ins : List Input) (s : State) :
    runInputs (x :: ins) s = ((runInputs ins (afterInput x (s.load ins))).1,
      (afterInput x (s.load ins)).res.toList ++ (runInputs ins (afterInput x (s.load ins))).2) := by
  have h : (afterInput x (s.load ins)).load ins = afterInput x (s.load ins) := by
    conv => rhs; rw [← load_self (afterInput x (s.load ins))]
    simp
  rw [runInputs, List.length_cons, run_succ, drivenInput_load_cons, takeInput_load_cons]
  simp only [runInputs, h]

/-- The host's own run goes on from the next state of its first step. -/
theorem core_run_succ (M : Host.Core) (n : Nat) {s t : M.State} (h : M.step s = .next t) :
    M.run (n + 1) s = M.run n t := by
  rw [Host.Core.run, h]

/-- A run takes all its inputs. -/
@[simp] theorem runInputs_input (ins : List Input) (s : State) : (runInputs ins s).1.input = [] := by
  induction ins generalizing s with
  | nil => rfl
  | cons x ins ih => rw [runInputs_cons]; exact ih _

end Sys2Proof.Machine
end

