-- ==== Sys2Proof/Tests/Slice0.lean ====
section
/-!
SUPPORT. Tests on fixed values. Every expected value is the spec's own (spec/95_test_vectors.md and the worked
examples), and every test runs at most one step. After them, a witness for the hypotheses of each statement that has
some.
-/

namespace Sys2Proof.Tests

open Sys2Proof.Machine

/-- A small state of the engine: `(c0, c1, cnt; nred)`. -/
def st (c0 c1 : Acc) (cnt : Fin 360) (nred : Nat) : State :=
  { c0 := c0, c1 := c1, cnt := cnt, nred := nred, res := none, input := [] }

/-- The registers and the response after an outcome. -/
def seen : Host.Outcome State Fault Refusal → Option (Acc × Acc × Nat × Nat × Option Result)
  | .next t => some (t.c0, t.c1, t.cnt.val, t.nred, t.res)
  | .fault _ => none
  | .refused _ => none

/-- One step on which the word `w` is driven. -/
def onWord (w : CmdWord) (s : State) : Option (Acc × Acc × Nat × Nat × Option Result) :=
  seen (step (s.load [wordInput w]))

/-! ### Well-formedness: one ill-formed term for each check (R68, R69) -/

theorem test_wf_refuses_push_out_of_range : (SrcCommand.push 0x100000000).wf = false := by decide
theorem test_wf_takes_push_at_bound : (SrcCommand.push 0xFFFFFFFF).wf = true := by decide
theorem test_wf_refuses_pushb_out_of_range : (SrcCommand.pushb 256).wf = false := by decide
theorem test_wf_refuses_pusht_out_of_range : (SrcCommand.pusht 256).wf = false := by decide
theorem test_wf_refuses_checksum_element : (SrcCommand.checksum [1, 0x100000000]).wf = false := by decide
theorem test_wf_refuses_checksum_bytes_element : (SrcCommand.checksumBytes [255, 256]).wf = false := by decide

/-! ### Decoding: words written out bit by bit from R63 -/

/-- `00 xxxx…`: V12's last row, ignored bits set. -/
theorem test_decode_clr : decode 0b00_11011110101011011011111011101111#34 = .clr := by decide
/-- `01 eeee…`: PUSH 0x80000001. -/
theorem test_decode_push : decode 0b01_10000000000000000000000000000001#34 = .push 0x80000001#32 := by decide
/-- `10 xxxx… bbbbbbbb`: V15's last row, ignored bits set. -/
theorem test_decode_pushb : decode 0b10_11111111111111111111111110000000#34 = .pushb 0x80#8 := by decide
/-- `11 xxxx…`: V16 row 9, ignored bits set. -/
theorem test_decode_fin : decode 0b11_11011110101011011011111011101111#34 = .fin := by decide
/-- The canonical words of R63. -/
theorem test_encode_canonical :
    [encode .clr, encode (.push 3#32), encode (.pushb 0x68#8), encode .fin] =
      [0x000000000#34, 0x100000003#34, 0x200000068#34, 0x300000000#34] := by decide

/-! ### The commands, one step each -/

/-- V12, row 2. -/
theorem test_clr : onWord 0x000000000#34 (st 1160 7496 12 0) = some (0, 0, 0, 0, none) := by decide
/-- V12, row 3: the ghost count goes to 0, not up. -/
theorem test_clr_after_fin : onWord 0x000000000#34 (st 10 20 0 1) = some (0, 0, 0, 0, none) := by decide
/-- V13, row 2: `c1` adds the NEW `c0`. -/
theorem test_push_adds_new_sum : onWord 0x100000003#34 (st 3 4 2 0) = some (6, 10, 3, 0, none) := by decide
/-- V23: the 360th element, from the greatest sums. -/
theorem test_push_last_of_block :
    onWord 0x1FFFFFFFF#34 (st 0x167FFFFFE97 0xFDD3FFFF00C4 359 1) = some (0xFFFFFFFE, 0xFFFFFE96, 0, 2, none) := by
  decide
/-- V15: 0xFF is 255, not -1. -/
theorem test_pushb_zero_extends : onWord 0x2000000FF#34 (st 0 0 0 0) = some (255, 255, 1, 0, none) := by decide
/-- V15, last row: the ignored bits are not absorbed. -/
theorem test_pushb_ignores_high_data : onWord 0x2FFFFFF80#34 (st 0 0 0 0) = some (128, 128, 1, 0, none) := by decide
/-- V16, row 10: both accumulators really reduce. -/
theorem test_fin_reduces_open_block :
    onWord 0x300000000#34 (st 0x1FFFFFE95 0x2FFFF00C0 1 1) =
      some (0xFFFFFE96, 0xFFFF00C2, 0, 2, some 0xFFFF00C2FFFFFE96#64) := by decide
/-- V16, row 7: no second reduction after a full block. -/
theorem test_fin_closed_block :
    onWord 0x300000000#34 (st 360 64980 0 1) = some (360, 64980, 0, 1, some 0x0000FDD400000168#64) := by decide
/-- V11, row 3. -/
theorem test_idle :
    seen (step ((st 0x166FFFFFE99 0xFC6BFFFF0394 359 0).load [idleInput])) =
      some (0x166FFFFFE99, 0xFC6BFFFF0394, 359, 0, none) := by decide
/-- V26, row 2: a PUSH together with reset is not executed. -/
theorem test_reset_with_push :
    seen (step ((st 1160 7496 12 0).load [{ reset := true, cmd := some 0x100000005#34 }])) = some (0, 0, 0, 0, none) := by
  decide
/-- V26, row 3. -/
theorem test_first_command_after_reset :
    seen (step (State.reset.withFetchWord 40 0x300000000)) = some (0, 0, 0, 0, some 0#64) := by decide

/-! ### The reference function, the adapters and the assembler -/

/-- V2. -/
theorem test_checksum_1234 : checksum [1, 2, 3, 4] = 85899345930#64 := by decide
/-- V14, rows 5 and 6: the order matters. -/
theorem test_checksum_order :
    checksum [0xFFFFFFFE, 1] = 0xFFFFFFFE00000000#64 ∧ checksum [1, 0xFFFFFFFE] = 0x0000000100000000#64 := by decide
/-- V30: é is two code units. -/
theorem test_utf8_two_units : utf8 ['h', 'é'] = [0x68#8, 0xC3#8, 0xA9#8] := by decide
/-- P1's line `PUSH 1          # 0x100000001`. -/
theorem test_assemble_push_line :
    assembleLine utf8 ['P', 'U', 'S', 'H', ' ', '1', ' ', ' ', '#', ' ', '0', 'x'] = .ok [0x100000001#34] := by decide
/-- P2's line `PUSHT 'h'`. -/
theorem test_assemble_char_literal :
    assembleLine utf8 ['P', 'U', 'S', 'H', 'T', ' ', '\'', 'h', '\''] = .ok [0x200000068#34] := by decide
/-- P5's byte as a hexadecimal literal; and one out of range is an error, never truncated (R68). -/
theorem test_assemble_hex_and_range :
    assembleLine utf8 ['P', 'U', 'S', 'H', 'B', ' ', '0', 'x', '8', '0'] = .ok [0x200000080#34] ∧
    assembleLine utf8 ['P', 'U', 'S', 'H', 'B', ' ', '2', '5', '6'] = .error .outOfRange := by decide
/-- R69's macro with V15's byte: `CHECKSUM_BYTES [0x80]`. -/
theorem test_assemble_macro :
    assembleLine utf8 (['C', 'H', 'E', 'C', 'K', 'S', 'U', 'M', '_', 'B', 'Y', 'T', 'E', 'S', ' '] ++
      ['[', '0', 'x', '8', '0', ']']) = .ok [0x000000000#34, 0x200000080#34, 0x300000000#34] := by decide

/-! ### Witnesses: a concrete state and operands for the hypotheses of each statement that has some

`mid` and `last` meet the reachable-state invariant at both ends of the count; `last` is V21's state. -/

/-- A state in mid-block (V13). -/
def mid : State := st 3 4 2 0
/-- A state whose block is about to fill (V21). -/
def last : State := st 0x166FFFFFE99 0xFC6BFFFF0394 359 0
/-- A state whose block is closed, at the greatest reduced values (V16 row 3). -/
def closed : State := st 0xFFFFFFFE 0xFFFFFFFE 0 1

theorem witness_ResetTransitionFromEveryState :
    (mid.load [{ reset := true, cmd := some 0x100000005#34 }]).input =
      { reset := true, cmd := some 0x100000005#34 } :: [] := rfl
theorem witness_IdleStepsAreTransparent :
    (mid.load [idleInput]).input = { reset := false, cmd := none } :: [] := rfl
theorem witness_ClrClears_next : exec .clr mid = .next (st 0 0 0 0) := rfl
theorem witness_ClrClears_word : opOf 0x0DEADBEEF#34 = 0b00#2 := by decide
theorem witness_Push_inBlock : mid.Inv ∧ mid.cnt.val ≠ 359 := by decide
theorem witness_Push_inBlock_atBound : (st 0x165FFFFFE9A 0xFB04FFFF04FB 358 0).Inv := by decide
theorem witness_Push_last : last.Inv ∧ last.cnt.val = 359 := by decide
theorem witness_Push_word : opOf 0x1FFFFFFFF#34 = 0b01#2 := by decide
theorem witness_Pushb_word : opOf 0x2FFFFFF41#34 = 0b10#2 := by decide
theorem witness_Fin_closed : closed.BlockEnd ∧ closed.cnt.val = 0 := by decide
theorem witness_Fin_open : (st 0xFFFFFFFF 0xFFFFFFFF 1 0).BlockEnd ∧ (st 0xFFFFFFFF 0xFFFFFFFF 1 0).cnt.val ≠ 0 := by
  decide
theorem witness_Fin_word : opOf 0x3DEADBEEF#34 = 0b11#2 := by decide
theorem witness_Absorb_exact : last.Inv := by decide
theorem witness_Reduce_multiple : 0xFFFFFFFF ∣ last.c0.toNat ∧ 0xFFFFFFFF ∣ last.c1.toNat := by decide
theorem witness_Reduce_reduced : Reduced closed.c0 ∧ Reduced closed.c1 := by decide
theorem witness_ResponseHalves :
    closed.BlockEnd ∧ exec .fin closed = .next { closed with res := some 0xFFFFFFFEFFFFFFFE#64 } := ⟨by decide, by rfl⟩
theorem witness_PackIsTheWeightedSum : Reduced (st 10 20 0 1).c0 ∧ Reduced (st 10 20 0 1).c1 := by decide
theorem witness_DecodeOfEncode_wf : (Instr.pushb 0xFF#8).wf = true := rfl
theorem witness_DecodeOfEncode_injective : encode (.push 0#32) = encode (.push 0#32) := rfl
theorem witness_IgnoredBits_clr : (0b00#2 : OpField) = 0b00#2 ∧ (0#32 : BitVec 32) ≠ 0xDEADBEEF#32 := by decide
theorem witness_IgnoredBits_fin : (0b11#2 : OpField) = 0b11#2 ∧ (0#32 : BitVec 32) ≠ 0xDEADBEEF#32 := by decide
theorem witness_IgnoredBits_pushb :
    (0b10#2 : OpField) = 0b10#2 ∧ (0x41#32).extractLsb' 0 8 = (0xFFFFFF41#32).extractLsb' 0 8 := by decide
theorem witness_PushbWord : 256 ≤ (0xFFFFFF41#32).toNat ∧ 256 ≤ (0x100#32).toNat := by decide
theorem witness_StepRuns_input :
    (mid.load [wordInput 0x100000003#34]).input = { reset := false, cmd := some 0x100000003#34 } :: [] := rfl
theorem witness_StepRuns_tableWord : decodeTableWord 40 0x3FFFFFFFF = some .fin := by decide
theorem witness_StepTakesOneInput_ended : mid.input = [] := rfl
theorem witness_StepTakesOneInput_step : step (mid.load [idleInput]) = .next mid := rfl
theorem witness_StepTakesOneInput_exec : exec .clr mid = .next (st 0 0 0 0) := rfl
theorem witness_ResponseOnFin :
    step ((st 10 20 0 1).load [wordInput 0x300000000#34]) = .next { st 10 20 0 1 with res := some 0x140000000A#64 } :=
  by rfl
theorem witness_ResponseOnPush : step (mid.load [wordInput 0x100000003#34]) = .next (st 6 10 3 0) := by rfl
theorem witness_Frames_clr : exec .clr last = .next (st 0 0 0 0) := by rfl
theorem witness_Frames_push : exec (.push 3#32) mid = .next (st 6 10 3 0) ∧ mid.cnt.val < 359 := ⟨by rfl, by decide⟩
theorem witness_Frames_pushb : exec (.pushb 3#8) mid = .next (st 6 10 3 0) ∧ mid.cnt.val < 359 := ⟨by rfl, by decide⟩
theorem witness_Frames_fin :
    exec .fin closed = .next { closed with res := some 0xFFFFFFFEFFFFFFFE#64 } ∧ closed.cnt.val = 0 :=
  ⟨by rfl, by decide⟩
theorem witness_Count_push_last : exec (.push 0xFFFFFFFF#32) last = .next (st 0 0 0 1) ∧ last.cnt.val = 359 :=
  ⟨by rfl, by decide⟩
theorem witness_Count_pushb_last : exec (.pushb 0#8) last = .next (st 0 0 0 1) ∧ last.cnt.val = 359 :=
  ⟨by rfl, by decide⟩
theorem witness_Count_clr : exec .clr last = .next (st 0 0 0 0) := by rfl
theorem witness_Count_fin : exec .fin closed = .next { closed with res := some 0xFFFFFFFEFFFFFFFE#64 } := by rfl
theorem witness_Ghost : (st 10 20 4 0).SameRegs (st 10 20 4 7) := by decide
theorem witness_Idempotent_clr : exec .clr (st 10 20 4 0) = .next (st 0 0 0 0) := by rfl
theorem witness_Idempotent_push : exec (.push 0#32) (st 0 0 0 0) = .next (st 0 0 1 0) := by rfl
theorem witness_Idempotent_pushb : exec (.pushb 0#8) (st 0 0 0 0) = .next (st 0 0 1 0) := by rfl
theorem witness_Idempotent_fin : exec .fin (st 0 0 0 0) = .next { st 0 0 0 0 with res := some 0#64 } := by rfl
theorem witness_EveryStepKeepsTheBounds :
    (last.load [wordInput 0x1FFFFFFFF#34]).Inv ∧
      step (last.load [wordInput 0x1FFFFFFFF#34]) = .next (st 0 0 0 1) := ⟨by decide, by rfl⟩
theorem witness_ClosedBlocks_step : closed.BlockEnd ∧ step (closed.load [idleInput]) = .next closed :=
  ⟨by decide, by rfl⟩
theorem witness_ClosedBlocks_counting :
    step (mid.load [wordInput 0x100000003#34]) = .next (st 6 10 3 0) ∧ mid.cnt.val < (st 6 10 3 0).cnt.val :=
  ⟨by rfl, by decide⟩
theorem witness_NoAdditionWraps : (st 0x167FFFFFE97 0xFDD3FFFF00C4 359 1).Inv := by decide
theorem witness_Blocks_360 : (List.replicate 360 (1#32)).length = 360 := List.length_replicate
theorem witness_Blocks_361 : (List.replicate 361 (1#32)).length = 361 := List.length_replicate
theorem witness_Blocks_member : ([1#32] : List Elem) ∈ blocks [1#32] := by decide
theorem witness_Blocks_full :
    List.replicate 360 (1#32) ∈ (blocks (List.replicate 361 (1#32))).dropLast := by
  have h : blocks (List.replicate 361 (1#32)) = [List.replicate 360 (1#32), [1#32]] := by
    rw [blocks, List.length_replicate, List.replicate_succ, blocksUpTo, ← List.replicate_succ, List.take_replicate,
      List.drop_replicate]
    exact congrArg₂ List.cons (congrArg (List.replicate · _) (by decide)) (by rfl)
  rw [h]
  exact List.mem_singleton.2 rfl
/-- For StateAfterAPushSequence and InvocationEmitsTheChecksum, with a PUSHB and an idle step among the pushes. -/
theorem witness_PushSequence :
    pushedElements [wordInput 0x1FFFFFFFF#34, idleInput, wordInput 0x2FFFFFF80#34] = some [0xFFFFFFFF#32, 0x80#32] ∧
    State.reset.Cleared := by decide
theorem witness_BytesMember : (255#32 : Elem) ∈ elementsOfBytes [0xFF#8] := by decide
theorem witness_AlteredByte : (0x00#8 : Byte) ≠ 0xFF#8 := by decide
theorem witness_SwappedBytes : (0x00#8 : Byte) ≠ 0xFF#8 ∧ ([] : List Byte).length + 1 < 16843009 := by decide
theorem witness_Macros_pusht : (255 : Nat) ≤ 255 := le_rfl
theorem witness_Macros_checksum : ∀ e ∈ [0, 0xFFFFFFFF], e ≤ 0xFFFFFFFF := by decide
theorem witness_Macros_checksumBytes : ∀ b ∈ [0, 255], b ≤ 255 := by decide

end Sys2Proof.Tests
end

/-!
PROOFS. The statements about the registers (spec/10_state.md): reset (R31), the count (R24), the block-end invariant
(R22) and the ghost count (R30), with the rules about the shared operations they rest on.
-/

namespace Sys2Proof.Machine

/-! ### What the operations do to the count and the ghost count -/

/-- Clearing with nothing emitted gives the reset state, the host's coming inputs kept (R31, R101). -/
theorem respond_none_clear (s : State) : respond none (clear s) = State.reset.load s.input := rfl

/-- One element takes the count one further round the block (R24). -/
theorem pushElement_cnt_val (e : Elem) (s : State) : (pushElement e s).cnt.val = (s.cnt.val + 1) % 360 := by
  rcases cnt_cases s with h | h
  · rw [pushElement_inBlock h, Nat.mod_eq_of_lt (by omega)]
  · rw [pushElement_last h, h]; rfl

theorem pushElement_nred_inBlock {e : Elem} {s : State} (h : s.cnt.val < 359) :
    (pushElement e s).nred = s.nred := by
  rw [pushElement_inBlock h]

theorem pushElement_nred_last {e : Elem} {s : State} (h : s.cnt.val = 359) :
    (pushElement e s).nred = s.nred + 1 := by
  rw [pushElement_last h, reduce_nred]

theorem pushElement_reduced_last {e : Elem} {s : State} (h : s.cnt.val = 359) :
    Reduced (pushElement e s).c0 ∧ Reduced (pushElement e s).c1 := by
  rw [pushElement_last h]
  exact reduce_reduced _

/-- One element round the block, with the REDUCE of its last place: what R24 says of PUSH and PUSHB alike. -/
theorem pushElement_goesRound (e : Elem) (s : State) :
    (pushElement e s).cnt.val = (s.cnt.val + 1) % 360 ∧
      (s.cnt.val = 359 → (pushElement e s).nred = s.nred + 1 ∧
        Reduced (pushElement e s).c0 ∧ Reduced (pushElement e s).c1) :=
  ⟨pushElement_cnt_val e s, fun h => ⟨pushElement_nred_last h, pushElement_reduced_last h⟩⟩

/-! ### The block-end invariant (R22) -/

theorem clear_blockEnd (s : State) : (clear s).BlockEnd := fun _ => by simp

/-- From every state: within the block the count is not 0, and at its end there was a REDUCE. -/
theorem pushElement_blockEnd (e : Elem) (s : State) : (pushElement e s).BlockEnd := by
  intro h0
  rcases cnt_cases s with h | h
  · rw [pushElement_cnt_val] at h0
    omega
  · exact pushElement_reduced_last h

theorem closeBlock_blockEnd {s : State} (hs : s.BlockEnd) : (closeBlock s).BlockEnd := by
  by_cases h : s.cnt.val = 0
  · rwa [closeBlock_closed h]
  · rw [closeBlock_open h]
    exact fun _ => reduce_reduced s

theorem afterCommand_blockEnd (i : Instr) {s : State} (hs : s.BlockEnd) : (afterCommand i s).BlockEnd := by
  cases i with
  | clr => exact clear_blockEnd s
  | push e => exact pushElement_blockEnd e s
  | pushb b => exact pushElement_blockEnd (elementOfByte b) s
  | fin => exact closeBlock_blockEnd hs

theorem afterInput_blockEnd (x : Input) {s : State} (hs : s.BlockEnd) : (afterInput x s).BlockEnd := by
  rcases afterInput_cases x s with ⟨_, h⟩ | ⟨_, _, h⟩ | ⟨w, _, _, h⟩ <;> rw [h]
  · exact clear_blockEnd s
  · exact hs
  · exact afterCommand_blockEnd (decode w) hs

/-! ### A rising count means no REDUCE (R22) -/

/-- The element that fills the block takes the count to 0, so where the count rises nothing was reduced. -/
theorem pushElement_nred_of_cnt_lt {e : Elem} {s : State} (h : s.cnt.val < (pushElement e s).cnt.val) :
    (pushElement e s).nred = s.nred := by
  rcases cnt_cases s with hk | hk
  · exact pushElement_nred_inBlock hk
  · rw [pushElement_cnt_val, hk] at h
    omega

theorem afterCommand_nred_of_cnt_lt {i : Instr} {s : State} (h : s.cnt.val < (afterCommand i s).cnt.val) :
    (afterCommand i s).nred = s.nred := by
  cases i with
  | clr => simp [afterCommand] at h
  | push e => exact pushElement_nred_of_cnt_lt h
  | pushb b => exact pushElement_nred_of_cnt_lt h
  | fin => simp [afterCommand] at h

theorem afterInput_nred_of_cnt_lt {x : Input} {s : State} (h : s.cnt.val < (afterInput x s).cnt.val) :
    (afterInput x s).nred = s.nred := by
  rcases afterInput_cases x s with ⟨_, hx⟩ | ⟨_, _, hx⟩ | ⟨w, _, _, hx⟩ <;> rw [hx] at h ⊢
  · simp at h
  · simp at h
  · exact afterCommand_nred_of_cnt_lt h

/-! ### The ghost count is read by nothing (R30): states that agree on `c0`, `c1`, `cnt` go on agreeing -/

/-- ABSORB is a function of the three registers. -/
theorem absorb_eq_of_sameRegs {s t : State} (h : s.SameRegs t) (e : Elem) : absorb e s = absorb e t := by
  obtain ⟨h0, h1, hk⟩ := h
  simp only [absorb, h0, h1, hk]

/-- PACK is a function of `c0` and `c1`. -/
theorem pack_eq_of_sameRegs {s t : State} (h : s.SameRegs t) : pack s = pack t := by
  obtain ⟨h0, h1, _⟩ := h
  simp only [pack, h0, h1]

theorem reduce_sameRegs {s t : State} (h : s.SameRegs t) : (reduce s).SameRegs (reduce t) := by
  obtain ⟨h0, h1, _⟩ := h
  simp [State.SameRegs, h0, h1]

/-- What the registers are once ABSORB's are taken over does not depend on the state before. -/
theorem settle_sameRegs (a : Absorbed) (s t : State) : (settle a s).SameRegs (settle a t) := by
  unfold settle
  split <;> exact ⟨rfl, rfl, rfl⟩

theorem pushElement_sameRegs {s t : State} (h : s.SameRegs t) (e : Elem) :
    (pushElement e s).SameRegs (pushElement e t) := by
  rw [pushElement, pushElement, absorb_eq_of_sameRegs h e]
  exact settle_sameRegs _ s t

theorem closeBlock_sameRegs {s t : State} (h : s.SameRegs t) : (closeBlock s).SameRegs (closeBlock t) := by
  have ⟨_, _, hk⟩ := h
  by_cases h0 : s.cnt.val = 0
  · rwa [closeBlock_closed h0, closeBlock_closed (hk ▸ h0)]
  · rw [closeBlock_open h0, closeBlock_open (hk ▸ h0)]
    exact reduce_sameRegs h

/-- A command's registers and its response depend on the three registers only. -/
theorem afterCommand_sameRegs {s t : State} (h : s.SameRegs t) (i : Instr) :
    (afterCommand i s).SameRegs (afterCommand i t) ∧ (afterCommand i s).res = (afterCommand i t).res := by
  cases i with
  | clr => exact ⟨⟨rfl, rfl, rfl⟩, rfl⟩
  | push e => exact ⟨pushElement_sameRegs h e, rfl⟩
  | pushb b => exact ⟨pushElement_sameRegs h (elementOfByte b), rfl⟩
  | fin =>
    have hclosed := closeBlock_sameRegs h
    exact ⟨hclosed, congrArg some (pack_eq_of_sameRegs hclosed)⟩

/-- So do those of every input. -/
theorem afterInput_sameRegs {s t : State} (h : s.SameRegs t) (x : Input) :
    (afterInput x s).SameRegs (afterInput x t) ∧ (afterInput x s).res = (afterInput x t).res := by
  rcases x with ⟨_ | _, _ | w⟩
  · exact ⟨h, rfl⟩
  · exact afterCommand_sameRegs h (decode w)
  · exact ⟨⟨rfl, rfl, rfl⟩, rfl⟩
  · exact ⟨⟨rfl, rfl, rfl⟩, rfl⟩

/-- The runs of the same inputs give the same responses and the same registers. -/
theorem runInputs_sameRegs {s t : State} (h : s.SameRegs t) (ins : List Input) :
    (runInputs ins s).2 = (runInputs ins t).2 ∧ (runInputs ins s).1.SameRegs (runInputs ins t).1 := by
  induction ins generalizing s t with
  | nil => exact ⟨rfl, h⟩
  | cons x ins ih =>
    obtain ⟨hregs, hres⟩ := afterInput_sameRegs (s := s.load ins) (t := t.load ins) h x
    obtain ⟨hresponses, hlast⟩ := ih hregs
    rw [runInputs_cons, runInputs_cons, hres, hresponses]
    exact ⟨rfl, hlast⟩

/-! ### The obligations of the family -/

/-- Settles O30: what every input keeps of R22, and a step that raises the count is one that reduced nothing. -/
theorem closedBlocksAreReduced : Obligations.ClosedBlocksAreReduced := by
  unfold Obligations.ClosedBlocksAreReduced
  refine ⟨fun _ => by simp, fun s t hs h => ?_, fun s t h hlt => ?_⟩
  · rw [step_next h]
    exact afterInput_blockEnd _ (s := takeInput s) hs
  · rw [step_next h] at hlt ⊢
    exact afterInput_nred_of_cnt_lt (s := takeInput s) hlt

/-- Settles O24: the two pushes by what one element does, CLR and FIN by the count they leave. -/
theorem countGoesRoundTheBlock : Obligations.CountGoesRoundTheBlock := by
  unfold Obligations.CountGoesRoundTheBlock
  refine ⟨fun s => Nat.le_of_lt_succ s.cnt.isLt, fun e s t h => ?_, fun b s t h => ?_, fun s t h => ?_⟩
  · rw [exec_next h]
    exact pushElement_goesRound e s
  · rw [exec_next h]
    exact pushElement_goesRound (elementOfByte b) s
  · rcases h with h | h
    · rw [exec_next h]; rfl
    · rw [exec_next h]; simp [afterCommand]

/-- Settles O25: by induction on the inputs, states that agree on the registers go on agreeing. -/
theorem ghostCountIsReadByNothing : Obligations.GhostCountIsReadByNothing := by
  unfold Obligations.GhostCountIsReadByNothing
  exact ⟨fun s => ⟨clear_nred s, by simp, reduce_nred s⟩, fun ins _ _ h => runInputs_sameRegs h ins⟩

/-- Settles O1: CLR leads to the cleared state with nothing emitted, which is the reset state. -/
theorem resetLeavesTheClearedState : Obligations.ResetLeavesTheClearedState := by
  unfold Obligations.ResetLeavesTheClearedState
  refine ⟨⟨rfl, rfl, rfl, rfl⟩, fun s => ?_⟩
  rw [exec_eq, afterCommand, respond_none_clear]

end Sys2Proof.Machine

/-!
PROOFS. The statement about the response channel (spec/20_memory.md R44): which command, which input and so which step
puts a result on it.
-/

namespace Sys2Proof.Machine

/-- Of the four commands only FIN emits, whatever the channel carried before (R44). -/
theorem afterCommand_res_isSome (i : Instr) (s : State) : (afterCommand i s).res.isSome = true ↔ i = .fin := by
  cases i <;> simp [afterCommand]

/-- Reset and the idle step emit nothing; a presented word emits where it decodes to FIN. -/
theorem afterInput_res_isSome (x : Input) (s : State) :
    (afterInput x s).res.isSome = true ↔ ∃ w, x = wordInput w ∧ decode w = .fin := by
  rcases x with ⟨_ | _, _ | w⟩
  · simp [afterInput, wordInput]
  · exact (afterCommand_res_isSome (decode w) s).trans (by simp [wordInput])
  · simp [afterInput, wordInput]
  · simp [afterInput, wordInput]

/-- A word is driven only where it heads the host's coming inputs: past their end the step is idle (R64). -/
theorem drivenInput_eq_wordInput (s : State) (w : CmdWord) :
    drivenInput s = wordInput w ↔ ∃ rest, s.input = wordInput w :: rest := by
  cases h : s.input with
  | nil => simp [drivenInput, h, wordInput]
  | cons x rest => simp [drivenInput, h]

/-- Settles O22: the step's result is its input's, and a driven word is the head of the host's inputs. -/
theorem responseExactlyOnFinSteps : Obligations.ResponseExactlyOnFinSteps := by
  unfold Obligations.ResponseExactlyOnFinSteps
  intro s t h
  simp only [step_next h, afterInput_res_isSome, drivenInput_eq_wordInput, exists_and_right]
  exact Iff.rfl

end Sys2Proof.Machine

/-!
PROOFS. The statements about the encoding (spec/30_encoding.md, and R70 of 40_core_function.md): the two halves of a
response, the fields of a command word, the decoder by the opcode map, the canonical words, the ignored bits, and the
words of the pseudo-commands.
-/

namespace Sys2Proof.Machine

/-! ### The two halves of a response (R70) -/

theorem resultHi_toNat (v : Result) : (resultHi v).toNat = v.toNat / 2 ^ 32 := by
  have := v.isLt
  simp only [resultHi, BitVec.extractLsb'_toNat, Nat.shiftRight_eq_div_pow]
  omega

theorem resultLo_toNat (v : Result) : (resultLo v).toNat = v.toNat % 2 ^ 32 := by
  simp [resultLo]

/-- On a reduced pair PACK puts `c1` in the high half: its 32 bits hold it whole. -/
theorem resultHi_pack_toNat {s : State} (h0 : Reduced s.c0) (h1 : Reduced s.c1) :
    (resultHi (pack s)).toNat = s.c1.toNat := by
  rw [resultHi_toNat, pack_toNat h0 h1]
  omega

theorem resultLo_pack_toNat {s : State} (h0 : Reduced s.c0) (h1 : Reduced s.c1) :
    (resultLo (pack s)).toNat = s.c0.toNat := by
  rw [resultLo_toNat, pack_toNat h0 h1]
  omega

/-- What a closed block leaves is reduced (R22). -/
theorem closeBlock_reduced {s : State} (hs : s.BlockEnd) : Reduced (closeBlock s).c0 ∧ Reduced (closeBlock s).c1 :=
  closeBlock_blockEnd hs (by simp)

/-- A half that holds a reduced value is not 0xFFFFFFFF. -/
theorem half_ne_modulus {x : BitVec 32} {a : Acc} (hx : x.toNat = a.toNat) (ha : Reduced a) : x ≠ 0xFFFFFFFF#32 := by
  rintro rfl
  simp only [Reduced, ← hx] at ha
  exact absurd ha (by decide)

/-! ### The fields of a word on the numbers (R60, R62) -/

theorem wordOf_toNat (op : OpField) (d : BitVec 32) : (wordOf op d).toNat = op.toNat * 2 ^ 32 + d.toNat := by
  rw [wordOf, BitVec.toNat_append, ← Nat.shiftLeft_add_eq_or_of_lt d.isLt, Nat.shiftLeft_eq]

/-- The element is the word's low 32 bits. -/
theorem elementOf_eq_ofNat (w : CmdWord) : elementOf w = BitVec.ofNat 32 w.toNat := by
  apply BitVec.eq_of_toNat_eq
  simp [elementOf, dataOf]

/-- The byte is the word's low 8 bits. -/
theorem byteOf_eq_ofNat (w : CmdWord) : byteOf w = BitVec.ofNat 8 w.toNat := by
  apply BitVec.eq_of_toNat_eq
  simp [byteOf, dataOf]

/-! ### The decoder by the opcode map (R63) -/

/-- The decoder's own case is the word's `op`. -/
@[simp] theorem opcode_decode (w : CmdWord) : opcode (decode w) = opOf w := by
  have hfour : ∀ op : OpField, op = 0b00#2 ∨ op = 0b01#2 ∨ op = 0b10#2 ∨ op = 0b11#2 := by decide
  rcases hfour (opOf w) with h | h | h | h <;> simp [decode, opcode, h]

theorem opcode_eq_clr_iff (i : Instr) : opcode i = 0b00#2 ↔ i = .clr := by cases i <;> simp [opcode]

theorem opcode_eq_push_iff (i : Instr) : opcode i = 0b01#2 ↔ ∃ e, i = .push e := by cases i <;> simp [opcode]

theorem opcode_eq_pushb_iff (i : Instr) : opcode i = 0b10#2 ↔ ∃ b, i = .pushb b := by cases i <;> simp [opcode]

theorem opcode_eq_fin_iff (i : Instr) : opcode i = 0b11#2 ↔ i = .fin := by cases i <;> simp [opcode]

/-- The `match` of a row is its opcode over zeros. -/
theorem opMatch_eq (i : Instr) : opMatch i = wordOf (opcode i) 0#32 := by
  cases i with
  | clr => decide
  | push e => exact (by decide : 0x100000000#34 = wordOf 0b01#2 0#32)
  | pushb b => exact (by decide : 0x200000000#34 = wordOf 0b10#2 0#32)
  | fin => decide

/-- The mask keeps the opcode and clears the data. -/
theorem and_opMask (w : CmdWord) : w &&& opMask = wordOf (opOf w) 0#32 := by
  have hmask : opMask = wordOf (BitVec.allOnes 2) 0#32 := by decide
  calc w &&& opMask
      = wordOf (opOf w) (dataOf w) &&& wordOf (BitVec.allOnes 2) 0#32 := by rw [wordOf_fields, hmask]
    _ = wordOf (opOf w) 0#32 := by rw [wordOf_and, BitVec.and_allOnes, BitVec.and_zero]

/-- A masked word is an opcode over zeros exactly where that opcode is the decoded command's. -/
theorem opcode_decode_eq_iff (w : CmdWord) (op : OpField) :
    opcode (decode w) = op ↔ w &&& opMask = wordOf op 0#32 := by
  rw [opcode_decode, and_opMask, wordOf, wordOf, BitVec.append_left_inj]

/-! ### The canonical words (R63) -/

/-- A word is its opcode over zeros, joined with its data. -/
theorem wordOf_eq_or (op : OpField) (d : BitVec 32) : wordOf op d = wordOf op 0#32 ||| d.setWidth 34 := by
  have hd : d.setWidth 34 = wordOf 0#2 d := BitVec.setWidth_eq_append (by decide)
  rw [hd, wordOf, wordOf, wordOf, BitVec.or_append, BitVec.or_zero, BitVec.zero_or]

/-- A command's canonical word is its row's match, joined with its operand. -/
theorem encode_eq_or (i : Instr) : encode i = opMatch i ||| (canonicalData i).setWidth 34 := by
  rw [opMatch_eq]
  exact wordOf_eq_or _ _

theorem encode_push (e : Elem) : encode (.push e) = 0x100000000#34 ||| e.setWidth 34 := encode_eq_or _

theorem encode_pushb (b : Byte) : encode (.pushb b) = 0x200000000#34 ||| b.setWidth 34 := by
  rw [encode_eq_or, canonicalData, elementOfByte, BitVec.setWidth_setWidth (by decide)]
  rfl

/-! ### Words with the same used bits (R66) -/

/-- CLR and FIN use no bit of the data, PUSHB its low byte. -/
theorem decode_wordOf_eq_of_used {op : OpField} {d d' : BitVec 32}
    (h : op = 0b00#2 ∨ op = 0b11#2 ∨ (op = 0b10#2 ∧ d.extractLsb' 0 8 = d'.extractLsb' 0 8)) :
    decode (wordOf op d) = decode (wordOf op d') := by
  rcases h with rfl | rfl | ⟨rfl, hbyte⟩
  · simp [decode]
  · simp [decode]
  · simp [decode, hbyte]

/-- A step on which a word is driven runs the command it decodes to. -/
theorem step_load_word (w : CmdWord) (rest : List Input) (s : State) :
    step (s.load (wordInput w :: rest)) = exec (decode w) (s.load rest) := rfl

/-! ### The words of the assembler (R68, R69) -/

/-- The word of PUSH with a number in range as its operand. -/
theorem encode_push_ofNat {e : Nat} (h : e ≤ 0xFFFFFFFF) :
    encode (.push (BitVec.ofNat 32 e)) = 0x100000000#34 ||| BitVec.ofNat 34 e := by
  rw [encode_push, BitVec.setWidth_ofNat_of_le_of_lt (by decide) (by omega)]

/-- The word of PUSHB with a number in range as its operand. -/
theorem encode_pushb_ofNat {b : Nat} (h : b ≤ 255) :
    encode (.pushb (BitVec.ofNat 8 b)) = 0x200000000#34 ||| BitVec.ofNat 34 b := by
  rw [encode_pushb, BitVec.setWidth_ofNat_of_le_of_lt (by decide) (by omega)]

theorem elemInRange_iff (e : Nat) : elemInRange e = true ↔ e ≤ 0xFFFFFFFF := decide_eq_true_iff

theorem byteInRange_iff (b : Nat) : byteInRange b = true ↔ b ≤ 255 := decide_eq_true_iff

/-- A written command with its operands in range assembles to the words of its expansion. -/
theorem assemble_of_wf (enc : TextEncoding) {c : SrcCommand} (h : c.wf = true) :
    assemble enc c = .ok ((expand enc c).map encode) := if_pos h

/-- The words of an invocation whose pushes have the words `word`: CLR's, those in order, FIN's. -/
theorem map_encode_invocation {α : Type} {push : α → Instr} {word : α → CmdWord} {operands : List α}
    (h : ∀ a ∈ operands, encode (push a) = word a) :
    (Instr.clr :: (operands.map push ++ [.fin])).map encode =
      0x000000000#34 :: (operands.map word ++ [0x300000000#34]) := by
  rw [List.map_cons, List.map_append, List.map_map]
  exact congrArg (fun ws => 0x000000000#34 :: (ws ++ [0x300000000#34])) (List.map_congr_left h)

/-! ### The obligations of the family -/

/-- Settles O11: FIN emits PACK of the closed block, whose accumulators are reduced. -/
theorem responseHalvesAreTheFinalAccumulators : Obligations.ResponseHalvesAreTheFinalAccumulators := by
  unfold Obligations.ResponseHalvesAreTheFinalAccumulators
  intro s t hs h
  obtain ⟨h0, h1⟩ := closeBlock_reduced hs
  have hhi := resultHi_pack_toNat h0 h1
  have hlo := resultLo_pack_toNat h0 h1
  rw [exec_next h]
  exact ⟨pack (closeBlock s), rfl, hhi, hlo, half_ne_modulus hhi h1, half_ne_modulus hlo h0⟩

/-- Settles O15: the mask leaves the opcode, which is the decoded command's and tells the four rows apart. -/
theorem decoderFollowsTheOpcodeMap : Obligations.DecoderFollowsTheOpcodeMap := by
  unfold Obligations.DecoderFollowsTheOpcodeMap
  refine ⟨fun w => ?_, fun w => ⟨?_, ?_, ?_, ?_⟩, rfl, rfl, encode_push, encode_pushb⟩
  · rw [opMatch_eq, opcode_decode]
    exact and_opMask w
  · exact (opcode_eq_clr_iff _).symm.trans (opcode_decode_eq_iff w _)
  · exact (opcode_eq_push_iff _).symm.trans (opcode_decode_eq_iff w _)
  · exact (opcode_eq_pushb_iff _).symm.trans (opcode_decode_eq_iff w _)
  · exact (opcode_eq_fin_iff _).symm.trans (opcode_decode_eq_iff w _)

/-- Settles O17: the two words decode to the same command. -/
theorem ignoredBitsChangeNothing : Obligations.IgnoredBitsChangeNothing := by
  unfold Obligations.IgnoredBitsChangeNothing
  intro s rest op d d' h
  rw [step_load_word, step_load_word, decode_wordOf_eq_of_used h]

/-- Settles O49: each pseudo-command is in range, and its words are those of its expansion, one by one. -/
theorem macrosExpand : Obligations.MacrosExpand := by
  unfold Obligations.MacrosExpand
  intro enc
  refine ⟨fun b hb => ?_, fun es hes => ?_, fun bs hbs => ?_, fun t => ?_⟩
  · have hwf : (SrcCommand.pusht b).wf = true := (byteInRange_iff b).2 hb
    rw [assemble_of_wf enc hwf, expand, List.map_singleton, encode_pushb_ofNat hb]
  · have hwf : (SrcCommand.checksum es).wf = true :=
      List.all_eq_true.2 fun e he => (elemInRange_iff e).2 (hes e he)
    rw [assemble_of_wf enc hwf, expand, map_encode_invocation fun e he => encode_push_ofNat (hes e he)]
  · have hwf : (SrcCommand.checksumBytes bs).wf = true :=
      List.all_eq_true.2 fun b hb => (byteInRange_iff b).2 (hbs b hb)
    rw [assemble_of_wf enc hwf, expand, map_encode_invocation fun b hb => encode_pushb_ofNat (hbs b hb)]
  · rw [assemble_of_wf enc rfl, expand, map_encode_invocation fun b _ => encode_pushb b]

/-- Settles O14: the fields on the numbers, and the decoder's operands are those fields. -/
theorem operandsOfAWord : Obligations.OperandsOfAWord := by
  unfold Obligations.OperandsOfAWord
  intro w
  refine ⟨?_, ?_, ?_, ?_, ?_⟩
  · rw [← wordOf_toNat, wordOf_fields]
  · rw [elementOf_eq_ofNat, BitVec.toNat_ofNat]
  · rw [byteOf_eq_ofNat, BitVec.toNat_ofNat]
  · rw [elementOfByte_toNat, byteOf_eq_ofNat, BitVec.toNat_ofNat]
  · rw [← elementOf_eq_ofNat, ← byteOf_eq_ofNat, decode]

end Sys2Proof.Machine

/-!
PROOFS. The statements about the micro-operations and the empty sequence (spec/40_core_function.md): ABSORB (R83), with
the reason no reachable addition wraps; REDUCE (R84); and the checksum of nothing (R86), with what CLR makes of any run.
-/

namespace Sys2Proof.Machine

/-! ### ABSORB (R83) -/

theorem absorb_c0_toNat (e : Elem) (s : State) : (absorb e s).c0.toNat = (s.c0.toNat + e.toNat) % 2 ^ 64 := by
  rw [absorb_c0, BitVec.toNat_add, accOfElement_toNat]

/-- The second addition takes the sum just written. -/
theorem absorb_c1_toNat (e : Elem) (s : State) :
    (absorb e s).c1.toNat = (s.c1.toNat + (absorb e s).c0.toNat) % 2 ^ 64 :=
  BitVec.toNat_add _ _

/-- One element takes the exact sums from the bounds of R23 at `cnt` to those one further. -/
theorem sums_le_of_inv (e : Elem) {s : State} (h : s.Inv) :
    s.c0.toNat + e.toNat ≤ c0Bound (s.cnt.val + 1) ∧
      s.c1.toNat + (s.c0.toNat + e.toNat) ≤ c1Bound (s.cnt.val + 1) := by
  obtain ⟨h0, h1⟩ := h
  have he := e.isLt
  have hsum : s.c0.toNat + e.toNat ≤ c0Bound (s.cnt.val + 1) := by
    rw [c0Bound_succ]; omega
  exact ⟨hsum, by rw [c1Bound_succ]; omega⟩

/-- The greatest bounds, those of a block just filled, are far below 2^64: no reachable addition wraps. -/
theorem absorb_toNat_of_inv (e : Elem) {s : State} (h : s.Inv) :
    (absorb e s).c0.toNat = s.c0.toNat + e.toNat ∧
      (absorb e s).c1.toNat = s.c1.toNat + (s.c0.toNat + e.toNat) := by
  obtain ⟨h0, h1⟩ := sums_le_of_inv e h
  have hk : s.cnt.val + 1 ≤ 360 := s.cnt.isLt
  have hb0 := c0Bound_le_c0Bound hk
  have hb1 := c1Bound_le_c1Bound hk
  rw [c0Bound_360] at hb0
  rw [c1Bound_360] at hb1
  have hc0 : (absorb e s).c0.toNat = s.c0.toNat + e.toNat := by
    rw [absorb_c0_toNat, Nat.mod_eq_of_lt (by omega)]
  exact ⟨hc0, by rw [absorb_c1_toNat, hc0, Nat.mod_eq_of_lt (by omega)]⟩

/-! ### REDUCE (R84) -/

/-- The canonical residue of a multiple of the modulus is 0, never the modulus itself. -/
theorem mod_modAcc_of_dvd {a : Acc} (h : 0xFFFFFFFF ∣ a.toNat) : a % modAcc = 0#64 :=
  BitVec.eq_of_toNat_eq (Nat.mod_eq_zero_of_dvd h)

theorem mod_modAcc_of_reduced {a : Acc} (h : Reduced a) : a % modAcc = a :=
  BitVec.eq_of_toNat_eq (Nat.mod_eq_of_lt (Nat.lt_succ_of_le h))

/-! ### Runs of commands: a first CLR makes the rest a run from reset -/

/-- The canonical word of a command decodes to it (R63). -/
theorem decode_encode (i : Instr) : decode (encode i) = i := by
  cases i <;> simp [decode, encode, opcode, canonicalData]

/-- Whatever the state, the commands after a CLR run as from reset (R101). -/
theorem runCommands_clr_cons (cs : List Instr) (s : State) :
    runCommands (.clr :: cs) s = runCommands cs State.reset := by
  have hclr : afterInput (wordInput (encode .clr)) (s.load (commandInputs cs)) = State.reset.load (commandInputs cs) := by
    rw [afterInput_word, decode_encode, afterCommand, respond_none_clear, load_input]
  have hrun : runCommands (.clr :: cs) s = runInputs (wordInput (encode .clr) :: commandInputs cs) s := rfl
  rw [hrun, runInputs_cons, hclr]
  rfl

/-- FIN from reset: no block is open, so it emits the 0 it finds and reduces nothing (R104). -/
theorem runCommands_fin_reset : runCommands [.fin] State.reset = ({ State.reset with res := some 0#64 }, [0#64]) := rfl

/-! ### The obligations of the family -/

/-- Settles O9: the sums modulo 2^64 as R83 writes them, exact under the bounds of R23, and those of a zero element. -/
theorem absorbAddsTheNewSum : Obligations.AbsorbAddsTheNewSum := by
  unfold Obligations.AbsorbAddsTheNewSum
  refine ⟨fun e s => ⟨absorb_c0_toNat e s, absorb_c1_toNat e s, ?_⟩, fun e _ h => absorb_toNat_of_inv e h, fun s => ?_⟩
  · rw [absorb_cnt, Fin.val_succ]
  · rw [absorb_c1, absorb_c0, accOfElement_zero, BitVec.add_zero]
    exact ⟨rfl, rfl⟩

/-- Settles O10: the two remainders, and what they are of a multiple of the modulus and of a reduced value. -/
theorem reduceLeavesCanonicalResidues : Obligations.ReduceLeavesCanonicalResidues := by
  unfold Obligations.ReduceLeavesCanonicalResidues
  intro s
  obtain ⟨hc0, hc1⟩ := reduce_reduced s
  exact ⟨reduce_c0_toNat s, reduce_c1_toNat s, rfl, reduce_nred s, reduce_res s, reduce_input s, hc0, hc1,
    mod_modAcc_of_dvd, mod_modAcc_of_dvd, mod_modAcc_of_reduced, mod_modAcc_of_reduced⟩

/-- Settles O33: the invocation of the empty sequence is CLR and FIN, so FIN from reset. -/
theorem emptySequenceGivesZero : Obligations.EmptySequenceGivesZero := by
  unfold Obligations.EmptySequenceGivesZero
  refine ⟨rfl, rfl, fun s => ?_⟩
  have hinv : invocation [] = [.clr, .fin] := rfl
  rw [hinv, runCommands_clr_cons, runCommands_fin_reset]
  exact ⟨rfl, rfl⟩

end Sys2Proof.Machine

/-!
PROOFS. The statements about the idle step and the four commands (spec/41_commands.md): idle (R100), CLR (R101), PUSH
(R102), PUSHB (R103) and FIN (R104), with the two facts about the channels they rest on: no step reads what the response
channel carried before, and none reads the inputs still to come.
-/

namespace Sys2Proof.Machine

/-! ### What the channels carry passes through the operations unread (R44, R49) -/

theorem pushElement_channels (e : Elem) (r : Option Result) (ins : List Input) (s : State) :
    pushElement e (respond r (s.load ins)) = respond r ((pushElement e s).load ins) := by
  rcases cnt_cases s with h | h
  · rw [pushElement_inBlock h, pushElement_inBlock (s := respond r (s.load ins)) h]; rfl
  · rw [pushElement_last h, pushElement_last (s := respond r (s.load ins)) h]; rfl

theorem closeBlock_channels (r : Option Result) (ins : List Input) (s : State) :
    closeBlock (respond r (s.load ins)) = respond r ((closeBlock s).load ins) := by
  by_cases h : s.cnt.val = 0
  · rw [closeBlock_closed h, closeBlock_closed (s := respond r (s.load ins)) h]
  · rw [closeBlock_open h, closeBlock_open (s := respond r (s.load ins)) h]; rfl

/-- Every command writes the response channel again, whatever it carried, and passes on the inputs still to come. -/
theorem afterCommand_channels (i : Instr) (r : Option Result) (ins : List Input) (s : State) :
    afterCommand i (respond r (s.load ins)) = (afterCommand i s).load ins := by
  cases i with
  | clr => rfl
  | push e => rw [afterCommand, pushElement_channels]; rfl
  | pushb b => rw [afterCommand, pushElement_channels]; rfl
  | fin => rw [afterCommand, closeBlock_channels]; rfl

/-- So does every input, idle and reset among them. -/
theorem afterInput_channels (x : Input) (r : Option Result) (ins : List Input) (s : State) :
    afterInput x (respond r (s.load ins)) = (afterInput x s).load ins := by
  rcases x with ⟨_ | _, _ | w⟩
  · rfl
  · exact afterCommand_channels (decode w) r ins s
  · rfl
  · rfl

theorem afterInput_load (x : Input) (ins : List Input) (s : State) :
    afterInput x (s.load ins) = (afterInput x s).load ins :=
  afterInput_channels x s.res ins s

theorem afterInput_respond (x : Input) (r : Option Result) (s : State) :
    afterInput x (respond r s) = afterInput x s :=
  calc afterInput x (respond r s)
      = (afterInput x s).load s.input := afterInput_channels x r s.input s
    _ = afterInput x s := by rw [← afterInput_input x s, load_self]

/-! ### Idle steps in a run (R100) -/

/-- The step on which `x` is driven, with `rest` still to come. -/
theorem step_of_input {s : State} {x : Input} {rest : List Input} (h : s.input = x :: rest) :
    step s = .next (afterInput x (s.load rest)) := by
  rw [step_eq, drivenInput, takeInput, h]
  rfl

/-- A run replaces what the host was going to drive. -/
theorem runInputs_load (ins rest : List Input) (s : State) : runInputs ins (s.load rest) = runInputs ins s := rfl

/-- A run's first step, which does not read the inputs still to come, then the rest of it. -/
theorem runInputs_cons_eq (x : Input) (ins : List Input) (s : State) :
    runInputs (x :: ins) s =
      ((runInputs ins (afterInput x s)).1, (afterInput x s).res.toList ++ (runInputs ins (afterInput x s)).2) := by
  rw [runInputs_cons, afterInput_load, runInputs_load, load_res]

/-- A first idle step leaves the rest of the run to the same registers, and emits nothing. -/
theorem runInputs_idle_cons (ins : List Input) (s : State) :
    runInputs (idleInput :: ins) s = runInputs ins (respond none s) := by
  rw [runInputs_cons_eq, afterInput_idle]
  rfl

/-- A run reads nothing of what the response channel carried before it; with no input that is still there at its end. -/
theorem runInputs_respond (ins : List Input) (r : Option Result) (s : State) :
    (runInputs ins (respond r s)).2 = (runInputs ins s).2 ∧
      respond none (runInputs ins (respond r s)).1 = respond none (runInputs ins s).1 := by
  cases ins with
  | nil => exact ⟨rfl, rfl⟩
  | cons x ins =>
    rw [runInputs_cons_eq, runInputs_cons_eq, afterInput_respond]
    exact ⟨rfl, rfl⟩

/-- The inputs that are not idle, in order. -/
def dropIdles (ins : List Input) : List Input := ins.filter fun x => decide (x ≠ idleInput)

theorem dropIdles_idle_cons (ins : List Input) : dropIdles (idleInput :: ins) = dropIdles ins :=
  List.filter_cons_of_neg (by simp)

theorem dropIdles_cons_of_ne {x : Input} (h : x ≠ idleInput) (ins : List Input) :
    dropIdles (x :: ins) = x :: dropIdles ins :=
  List.filter_cons_of_pos (by simpa using h)

/-- Without its idle steps a run emits the same and ends in the same state, the response channel apart: that carries
what the very last step, idle or not, put there. -/
theorem runInputs_dropIdles (ins : List Input) (s : State) :
    (runInputs ins s).2 = (runInputs (dropIdles ins) s).2 ∧
      respond none (runInputs ins s).1 = respond none (runInputs (dropIdles ins) s).1 := by
  induction ins generalizing s with
  | nil => exact ⟨rfl, rfl⟩
  | cons x ins ih =>
    rcases eq_or_ne x idleInput with rfl | hx
    · obtain ⟨hres, hlast⟩ := ih (respond none s)
      obtain ⟨hres', hlast'⟩ := runInputs_respond (dropIdles ins) none s
      rw [dropIdles_idle_cons, runInputs_idle_cons]
      exact ⟨hres.trans hres', hlast.trans hlast'⟩
    · obtain ⟨hres, hlast⟩ := ih (afterInput x s)
      rw [dropIdles_cons_of_ne hx, runInputs_cons_eq, runInputs_cons_eq, hres]
      exact ⟨rfl, hlast⟩

/-- States that agree but for the response channel have the same registers and ghost count. -/
theorem registers_eq_of_respond_eq {s t : State} {r : Option Result} (h : respond r s = respond r t) :
    s.SameRegs t ∧ s.nred = t.nred :=
  ⟨⟨congrArg (·.c0) h, congrArg (·.c1) h, congrArg (·.cnt) h⟩, congrArg (·.nred) h⟩

/-! ### The command an opcode selects (R63) -/

theorem decode_of_opOf_clr {w : CmdWord} (h : opOf w = 0b00#2) : decode w = .clr := if_pos h

theorem decode_of_opOf_push {w : CmdWord} (h : opOf w = 0b01#2) : decode w = .push (dataOf w) := by
  simp [decode, h, elementOf]

theorem decode_of_opOf_pushb {w : CmdWord} (h : opOf w = 0b10#2) :
    decode w = .pushb ((dataOf w).extractLsb' 0 8) := by
  simp [decode, h, byteOf]

theorem decode_of_opOf_fin {w : CmdWord} (h : opOf w = 0b11#2) : decode w = .fin := by
  simp [decode, h]

/-! ### One element on the numbers, from a state of the invariant (R102) -/

theorem pushElement_exact_inBlock (e : Elem) {s : State} (hs : s.Inv) (h : s.cnt.val < 359) :
    (pushElement e s).c0.toNat = s.c0.toNat + e.toNat ∧
      (pushElement e s).c1.toNat = s.c1.toNat + (s.c0.toNat + e.toNat) ∧
      (pushElement e s).cnt.val = s.cnt.val + 1 ∧ (pushElement e s).nred = s.nred := by
  obtain ⟨h0, h1⟩ := absorb_toNat_of_inv e hs
  rw [pushElement_inBlock h]
  exact ⟨h0, h1, rfl, rfl⟩

/-- At the block's last place the remainders are those of the exact sums: no addition wrapped before the REDUCE. -/
theorem pushElement_exact_last (e : Elem) {s : State} (hs : s.Inv) (h : s.cnt.val = 359) :
    (pushElement e s).c0.toNat = (s.c0.toNat + e.toNat) % 0xFFFFFFFF ∧
      (pushElement e s).c1.toNat = (s.c1.toNat + (s.c0.toNat + e.toNat)) % 0xFFFFFFFF ∧
      (pushElement e s).cnt.val = 0 ∧ (pushElement e s).nred = s.nred + 1 := by
  obtain ⟨h0, h1⟩ := absorb_toNat_of_inv e hs
  rw [pushElement_last h, ← h1, ← h0]
  exact ⟨reduce_c0_toNat _, reduce_c1_toNat _, rfl, rfl⟩

/-- The element of a byte is the number the byte is (R103). -/
theorem elementOfByte_eq_ofNat (b : Byte) : elementOfByte b = BitVec.ofNat 32 b.toNat :=
  (BitVec.ofNat_toNat 32 b).symm

/-! ### FIN (R104) -/

/-- Where no block is open FIN only emits. -/
theorem afterCommand_fin_of_closed {s : State} (h : s.cnt.val = 0) :
    afterCommand .fin s = respond (some (pack s)) s := by
  rw [afterCommand, closeBlock_closed h]

/-- FIN leaves no block open, so a second one finds the same registers and emits the same. -/
theorem afterCommand_fin_fin (s : State) : afterCommand .fin (afterCommand .fin s) = afterCommand .fin s := by
  have hclosed : (afterCommand .fin s).cnt.val = 0 := by simp [afterCommand]
  rw [afterCommand_fin_of_closed hclosed]
  rfl

theorem pack_of_zero {s : State} (h0 : s.c0 = 0#64) (h1 : s.c1 = 0#64) : pack s = 0#64 := by
  rw [pack, h0, h1]
  decide

/-- In the cleared state no block is open, and PACK of its registers is 0. -/
theorem afterCommand_fin_clr (s : State) :
    afterCommand .fin (afterCommand .clr s) = respond (some 0#64) (afterCommand .clr s) := by
  have hclosed : (afterCommand .clr s).cnt.val = 0 := rfl
  rw [afterCommand_fin_of_closed hclosed, pack_of_zero rfl rfl]

/-! ### The obligations of the family -/

/-- Settles O3: by induction on the inputs, an idle step only clears the response channel, which no later step reads. -/
theorem idleStepsAreTransparent : Obligations.IdleStepsAreTransparent := by
  unfold Obligations.IdleStepsAreTransparent
  refine ⟨fun s rest h => ?_, fun ins s => ?_⟩
  · rw [step_of_input h]
    rfl
  · obtain ⟨hres, hlast⟩ := runInputs_dropIdles ins s
    exact ⟨hres, registers_eq_of_respond_eq hlast⟩

/-- Settles O5: within the block by the exact sums, at its last place by the remainders of them. -/
theorem pushAbsorbsAndReducesAFullBlock : Obligations.PushAbsorbsAndReducesAFullBlock := by
  unfold Obligations.PushAbsorbsAndReducesAFullBlock
  refine ⟨fun e s hs => ⟨afterCommand (.push e) s, exec_eq _ _, rfl, afterCommand_input _ s, ?_⟩,
    fun w => decode_of_opOf_push⟩
  rcases cnt_cases s with h | h
  · rw [if_neg h.ne]
    exact pushElement_exact_inBlock e hs h
  · obtain ⟨h0, h1, hcnt, hnred⟩ := pushElement_exact_last e hs h
    rw [if_pos h]
    exact ⟨h0, h1, hcnt, hnred, pushElement_reduced_last h⟩

/-- Settles O6: PUSHB's meaning is PUSH's on the byte's element, whose number is the byte's. -/
theorem pushbIsPushOfTheZeroExtendedByte : Obligations.PushbIsPushOfTheZeroExtendedByte := by
  unfold Obligations.PushbIsPushOfTheZeroExtendedByte
  refine ⟨fun b s => ?_,
    fun b s hs => ⟨afterCommand (.pushb b) s, exec_eq _ _, rfl, afterCommand_input _ s, ?_⟩,
    fun w => decode_of_opOf_pushb⟩
  · rw [exec_eq, exec_eq, afterCommand, afterCommand, elementOfByte_eq_ofNat]
  · rw [← elementOfByte_toNat b]
    rcases cnt_cases s with h | h
    · rw [if_neg h.ne]
      exact pushElement_exact_inBlock (elementOfByte b) hs h
    · rw [if_pos h]
      exact pushElement_exact_last (elementOfByte b) hs h

/-- Settles O7: FIN leaves the closed block and emits PACK of it, whose halves R22 bounds; closing it again changes
nothing. -/
theorem finClosesTheBlockAndEmits : Obligations.FinClosesTheBlockAndEmits := by
  unfold Obligations.FinClosesTheBlockAndEmits
  refine ⟨fun s hs => ?_, fun s t h => ?_, fun w => decode_of_opOf_fin⟩
  · obtain ⟨h0, h1⟩ := closeBlock_reduced hs
    refine ⟨afterCommand .fin s, pack (closeBlock s), exec_eq _ _, rfl, rfl, afterCommand_input _ s, ?_,
      (exec_eq _ _).trans (congrArg _ (afterCommand_fin_fin s)),
      (resultHi_pack_toNat h0 h1).trans_le h1, (resultLo_pack_toNat h0 h1).trans_le h0⟩
    by_cases h : s.cnt.val = 0
    · rw [if_pos h, afterCommand, closeBlock_closed h]
      exact ⟨rfl, rfl, rfl, rfl⟩
    · rw [if_neg h, afterCommand, closeBlock_open h]
      exact ⟨reduce_c0_toNat s, reduce_c1_toNat s, rfl, rfl⟩
  · rw [exec_next h, exec_eq, afterCommand_fin_clr]
    rfl

/-- Settles O4: what CLR leads to is the reset state, with the host's inputs kept, so a second CLR finds it. -/
theorem clrClears : Obligations.ClrClears := by
  unfold Obligations.ClrClears
  refine ⟨fun s => ?_, fun s t h => ?_, fun w => decode_of_opOf_clr⟩
  · rw [exec_eq]
    rfl
  · have ht : t = State.reset.load s.input := exec_next h
    rw [ht, exec_eq]
    exact ⟨rfl, rfl⟩

end Sys2Proof.Machine

/-!
PROOFS. The statement about the byte adapter (spec/42_adapters.md R120), with the equations of the partition into blocks
(R80 step 2) and the count of the blocks (R87) it rests on.
-/

namespace Sys2Proof.Machine

/-! ### The partition into blocks (R80 step 2) -/

/-- The bound of the recursion takes no part in the result: two bounds that reach the sequence's length agree. -/
theorem blocksUpTo_eq_of_length_le {m n : Nat} {S : List Elem} (hm : S.length ≤ m) (hn : S.length ≤ n) :
    blocksUpTo m S = blocksUpTo n S := by
  induction m generalizing n S with
  | zero =>
    obtain rfl : S = [] := List.eq_nil_of_length_eq_zero (Nat.le_zero.1 hm)
    cases n <;> rfl
  | succ m ih =>
    match n, S with
    | 0, [] => rfl
    | n + 1, [] => rfl
    | n + 1, e :: S =>
      have hdrop : ((e :: S).drop Config.block).length ≤ S.length := by simp [Config.block]
      rw [blocksUpTo, blocksUpTo,
        ih (hdrop.trans (Nat.le_of_succ_le_succ hm)) (hdrop.trans (Nat.le_of_succ_le_succ hn))]

@[simp] theorem blocks_nil : blocks [] = [] := rfl

/-- The first block is the sequence's first 360 elements, or all of fewer; the other blocks are those of the rest. -/
theorem blocks_of_ne_nil {S : List Elem} (h : S ≠ []) :
    blocks S = S.take Config.block :: blocks (S.drop Config.block) := by
  obtain ⟨e, S, rfl⟩ := List.exists_cons_of_ne_nil h
  have hdrop : ((e :: S).drop Config.block).length ≤ S.length := by simp [Config.block]
  rw [blocks, blocks, List.length_cons, blocksUpTo, blocksUpTo_eq_of_length_le hdrop le_rfl]

/-! ### How many blocks there are (R87) -/

@[simp] theorem blockCount_zero : blockCount 0 = 0 := rfl

/-- Taking off the first block, whole or not, takes one off the count. -/
theorem blockCount_of_pos {n : Nat} (h : 0 < n) : blockCount n = blockCount (n - Config.block) + 1 := by
  simp only [blockCount, Config.block]
  omega

theorem length_blocks (S : List Elem) : (blocks S).length = blockCount S.length := by
  rcases eq_or_ne S [] with rfl | h
  · simp only [blocks_nil, List.length_nil, blockCount_zero]
  · have hpos : 0 < S.length := List.length_pos_iff.2 h
    rw [blocks_of_ne_nil h, List.length_cons, length_blocks (S.drop Config.block), List.length_drop,
      ← blockCount_of_pos hpos]
termination_by S.length
decreasing_by
  rw [List.length_drop]
  exact Nat.sub_lt hpos (by decide)

/-! ### The byte adapter (R120) -/

@[simp] theorem length_elementsOfBytes (B : List Byte) : (elementsOfBytes B).length = B.length := List.length_map _

theorem map_toNat_elementsOfBytes (B : List Byte) : (elementsOfBytes B).map BitVec.toNat = B.map BitVec.toNat := by
  rw [elementsOfBytes, List.map_map]
  exact List.map_congr_left fun b _ => elementOfByte_toNat b

theorem toNat_le_of_mem_elementsOfBytes {B : List Byte} {e : Elem} (h : e ∈ elementsOfBytes B) : e.toNat ≤ 255 := by
  obtain ⟨b, -, rfl⟩ := List.mem_map.1 h
  rw [elementOfByte_toNat]
  exact Nat.le_of_lt_succ b.isLt

/-- Settles O42: the adapter maps each byte to the element of the same value, and the number of blocks depends on the
sequence's length alone. -/
theorem bytesBecomeElementsOneForOne : Obligations.BytesBecomeElementsOneForOne := by
  unfold Obligations.BytesBecomeElementsOneForOne
  intro B
  refine ⟨length_elementsOfBytes B, map_toNat_elementsOfBytes B, fun e => toNat_le_of_mem_elementsOfBytes, ?_⟩
  rw [length_blocks, length_elementsOfBytes]

end Sys2Proof.Machine

/-!
PROOFS. The statement about faults and refusals (spec/60_exceptions.md R130): there are none.
-/

namespace Sys2Proof.Machine

/-- Settles O8: each command has the next state `afterCommand` names, and each input, so each step, the one
`afterInput` names. -/
theorem everyStepHasANextState : Obligations.EveryStepHasANextState := by
  unfold Obligations.EveryStepHasANextState
  exact ⟨fun i s => ⟨afterCommand i s, exec_eq i s⟩,
    fun s => ⟨afterInput (drivenInput s) (takeInput s), step_eq s⟩⟩

end Sys2Proof.Machine

/-!
PROOFS. The statement about reset (spec/70_reset_and_hazards.md R150): what a step on which reset is applied leads to.
-/

namespace Sys2Proof.Machine

/-- A command presented together with reset takes no part in the step, nor do the registers before it (R150). -/
theorem afterInput_reset (c : Option CmdWord) (s : State) :
    afterInput { reset := true, cmd := c } s = State.reset.load s.input := by
  rw [afterInput, if_pos rfl, applyReset_eq, respond_none_clear]

/-- What CLR leads to, from every state, is the reset state with the host's inputs kept (R101). -/
theorem exec_clr_eq_reset (s : State) : exec .clr s = .next (State.reset.load s.input) := by
  rw [exec_eq, afterCommand, respond_none_clear]

/-- Settles O2: the reset branch comes before the command is looked at, and clears as CLR does. -/
theorem resetTransitionFromEveryState : Obligations.ResetTransitionFromEveryState := by
  unfold Obligations.ResetTransitionFromEveryState
  intro s c rest h
  have hstep : step s = .next (State.reset.load rest) := by
    rw [step_of_input h, afterInput_reset, load_input]
  have hclr : exec .clr (s.load rest) = .next (State.reset.load rest) := by
    rw [exec_clr_eq_reset, load_input]
  exact ⟨hstep, hstep.trans hclr.symm⟩

end Sys2Proof.Machine

/-!
PROOFS. The statements about canonical words and the assembler (spec/30_encoding.md): decode and encode agree both ways,
the PUSHB word (R67), the words of the examples (R63), and the operand range (R68).
-/

namespace Sys2Proof.Machine

/-! ### Canonical words and ignored bits (R63, R66) -/

/-- A byte widened is the low byte of the data, every bit above it cleared. -/
theorem elementOfByte_low (d : BitVec 32) : elementOfByte (d.extractLsb' 0 8) = d &&& 0xFF#32 := by
  apply BitVec.eq_of_toNat_eq
  have hmask : d.toNat &&& 0xFF = d.toNat % 2 ^ 8 := Nat.and_two_pow_sub_one_eq_mod _ 8
  rw [elementOfByte_toNat, BitVec.extractLsb'_toNat, BitVec.toNat_and]
  exact hmask.symm

/-- The word of a decoded word has the same `op`, and of its data what that command uses. -/
theorem encode_decode_eq (w : CmdWord) : encode (decode w) = wordOf (opOf w) (canonicalData (decode w)) := by
  rw [encode, opcode_decode]

/-- Where a mask keeps `op` and the used bits of the data, encoding what a word decodes to is masking it. -/
theorem encode_decode_eq_and {w mask : CmdWord} {used : BitVec 32} (hmask : mask = wordOf (BitVec.allOnes 2) used)
    (hdata : canonicalData (decode w) = dataOf w &&& used) : encode (decode w) = w &&& mask := by
  calc encode (decode w)
      = wordOf (opOf w) (dataOf w &&& used) := by rw [encode_decode_eq, hdata]
    _ = wordOf (opOf w) (dataOf w) &&& wordOf (BitVec.allOnes 2) used := by rw [wordOf_and, BitVec.and_allOnes]
    _ = w &&& mask := by rw [wordOf_fields, hmask]

/-- CLR and FIN use no bit of the data. -/
theorem encode_decode_of_noOperand {w : CmdWord} (h : canonicalData (decode w) = 0#32) :
    encode (decode w) = w &&& 0x300000000#34 :=
  encode_decode_eq_and (used := 0#32) (by decide) (by rw [h, BitVec.and_zero])

/-- Settles O16: encoding is inverted by the decoder, so injective; a word's own command is encoded with the bits it
uses, which `op` tells. -/
theorem decodeOfEncodeIsTheCommand : Obligations.DecodeOfEncodeIsTheCommand := by
  unfold Obligations.DecodeOfEncodeIsTheCommand
  refine ⟨fun i _ => decode_encode i, fun _ _ h => Function.LeftInverse.injective decode_encode h, fun w => ?_⟩
  by_cases hpush : opOf w = 0b01#2
  · rw [if_pos hpush]
    refine encode_decode_eq_and (used := BitVec.allOnes 32) (by decide) ?_
    rw [decode_of_opOf_push hpush, canonicalData, BitVec.and_allOnes]
  by_cases hpushb : opOf w = 0b10#2
  · rw [if_neg hpush, if_pos hpushb]
    refine encode_decode_eq_and (used := 0xFF#32) (by decide) ?_
    rw [decode_of_opOf_pushb hpushb, canonicalData, elementOfByte_low]
  · rw [if_neg hpush, if_neg hpushb]
    apply encode_decode_of_noOperand
    by_cases hclr : opOf w = 0b00#2
    · rw [decode_of_opOf_clr hclr, canonicalData]
    · rw [decode, if_neg hclr, if_neg hpush, if_neg hpushb, canonicalData]

/-- Settles O18: the word decodes to PUSHB of its data's low byte, whose element is that number. -/
theorem pushbWordIsNotAPushOfItsData : Obligations.PushbWordIsNotAPushOfItsData := by
  unfold Obligations.PushbWordIsNotAPushOfItsData
  intro s rest d
  have hdecode : decode (wordOf 0b10#2 d) = .pushb (d.extractLsb' 0 8) := by
    rw [decode_of_opOf_pushb (opOf_wordOf _ _), dataOf_wordOf]
  have hlow : (d.extractLsb' 0 8).toNat = d.toNat % 256 := by simp
  refine ⟨?_, fun _ => ⟨?_, decode_wordOf_eq_of_used (.inr (.inr ⟨rfl, ?_⟩))⟩⟩
  · rw [step_load_word, hdecode, exec_eq, exec_eq, afterCommand, afterCommand, elementOfByte_eq_ofNat, hlow]
  · rw [hdecode, decode_of_opOf_push (opOf_wordOf _ _)]
    exact Instr.noConfusion
  · apply BitVec.eq_of_toNat_eq
    rw [hlow]
    simp

/-- Settles O19: each of the nine numbers evaluated. -/
theorem wordsOfTheSpecDecode : Obligations.WordsOfTheSpecDecode := by
  unfold Obligations.WordsOfTheSpecDecode
  decide

/-- A written command with an operand out of range does not assemble. -/
theorem assemble_of_not_wf (enc : TextEncoding) {c : SrcCommand} (h : ¬ c.wf = true) :
    assemble enc c = .error .outOfRange := if_neg h

/-- Settles O48: in range the word is that of the one command of the expansion, out of range nothing is emitted. -/
theorem assemblerEmitsOrRejects : Obligations.AssemblerEmitsOrRejects := by
  unfold Obligations.AssemblerEmitsOrRejects
  intro enc
  refine ⟨rfl, rfl, fun e => ?_, fun b => ?_⟩
  · have hwf : (SrcCommand.push e).wf = true ↔ e ≤ 0xFFFFFFFF := elemInRange_iff e
    split
    case isTrue h => rw [assemble_of_wf enc (hwf.2 h), expand, List.map_singleton, encode_push_ofNat h]
    case isFalse h => exact assemble_of_not_wf enc (mt hwf.1 h)
  · have hwf : (SrcCommand.pushb b).wf = true ↔ b ≤ 255 := byteInRange_iff b
    split
    case isTrue h => rw [assemble_of_wf enc (hwf.2 h), expand, List.map_singleton, encode_pushb_ofNat h]
    case isFalse h => exact assemble_of_not_wf enc (mt hwf.1 h)

end Sys2Proof.Machine

/-!
PROOFS. The statements about the reachable-state invariant (spec/10_state.md R23, R32): it holds at reset, every step and
so every run keeps it, and under it no addition wraps.
-/

namespace Sys2Proof.Machine

/-! ### The reachable-state invariant (R32) -/

/-- A reduced pair is within the bounds of R23 at every count. -/
theorem inv_of_reduced {s : State} (h : Reduced s.c0 ∧ Reduced s.c1) : s.Inv :=
  ⟨h.1.trans (c0Bound_le_c0Bound (Nat.zero_le _)), h.2.trans (c1Bound_le_c1Bound (Nat.zero_le _))⟩

theorem clear_inv (s : State) : (clear s).Inv := inv_of_reduced (by simp)

/-- Within the block the exact sums meet the bounds one further; at its end they are reduced. -/
theorem pushElement_inv (e : Elem) {s : State} (hs : s.Inv) : (pushElement e s).Inv := by
  rcases cnt_cases s with h | h
  · obtain ⟨h0, h1, hcnt, -⟩ := pushElement_exact_inBlock e hs h
    rw [State.Inv, h0, h1, hcnt]
    exact sums_le_of_inv e hs
  · exact inv_of_reduced (pushElement_reduced_last h)

theorem closeBlock_inv {s : State} (hs : s.Inv) : (closeBlock s).Inv := by
  by_cases h : s.cnt.val = 0
  · rwa [closeBlock_closed h]
  · rw [closeBlock_open h]
    exact inv_of_reduced (reduce_reduced s)

theorem afterCommand_inv (i : Instr) {s : State} (hs : s.Inv) : (afterCommand i s).Inv := by
  cases i with
  | clr => exact clear_inv s
  | push e => exact pushElement_inv e hs
  | pushb b => exact pushElement_inv (elementOfByte b) hs
  | fin => exact closeBlock_inv hs

theorem afterInput_inv (x : Input) {s : State} (hs : s.Inv) : (afterInput x s).Inv := by
  rcases afterInput_cases x s with ⟨_, h⟩ | ⟨_, _, h⟩ | ⟨w, _, _, h⟩ <;> rw [h]
  · exact clear_inv s
  · exact hs
  · exact afterCommand_inv (decode w) hs

/-- Settles O29: the step's next state is its input's, and every input keeps the bounds. -/
theorem everyStepKeepsTheBounds : Obligations.EveryStepKeepsTheBounds := by
  unfold Obligations.EveryStepKeepsTheBounds
  intro s t hs h
  rw [step_next h]
  exact afterInput_inv _ (s := takeInput s) hs

/-- What every input keeps, and what the host still drives takes no part in, holds at the end of every run. -/
theorem runInputs_invariant {P : State → Prop} (hload : ∀ s, P s → P (s.load []))
    (hinput : ∀ x s, P s → P (afterInput x s)) (ins : List Input) {s : State} (hs : P s) :
    P (runInputs ins s).1 := by
  induction ins generalizing s with
  | nil => exact hload s hs
  | cons x ins ih =>
    rw [runInputs_cons_eq]
    exact ih (hinput x s hs)

theorem cleared_inv {s : State} (h : s.Cleared) : s.Inv := by
  obtain ⟨h0, h1, -⟩ := h
  exact inv_of_reduced (by simp [h0, h1])

theorem cleared_blockEnd {s : State} (h : s.Cleared) : s.BlockEnd := by
  obtain ⟨h0, h1, -⟩ := h
  exact fun _ => by simp [h0, h1]

theorem reset_load_cleared (ins : List Input) : (State.reset.load ins).Cleared := ⟨rfl, rfl, rfl, rfl⟩

/-- Settles O28: the reset state is cleared, and a cleared state meets both invariants. -/
theorem resetStateIsGood : Obligations.ResetStateIsGood := by
  unfold Obligations.ResetStateIsGood
  intro ins
  have hclr := reset_load_cleared ins
  exact ⟨cleared_inv hclr, cleared_blockEnd hclr, hclr⟩

/-- Settles O32: both invariants hold at reset and every input keeps them. -/
theorem reachableStatesAreGood : Obligations.ReachableStatesAreGood := by
  unfold Obligations.ReachableStatesAreGood
  intro ins
  have hreset : State.reset.Cleared := reset_load_cleared []
  exact ⟨runInputs_invariant (fun _ h => h) (fun x _ => afterInput_inv x) ins (cleared_inv hreset),
    runInputs_invariant (fun _ h => h) (fun x _ => afterInput_blockEnd x) ins (cleared_blockEnd hreset)⟩

/-- Settles O31: one element takes the sums to the bounds one further, at most those at 360; V23's state, at the bounds
of 359, attains them. -/
theorem noAdditionWraps : Obligations.NoAdditionWraps := by
  unfold Obligations.NoAdditionWraps
  refine ⟨fun e s hs => ?_, ⟨0x167FFFFFE97#64, 0xFDD3FFFF00C4#64, 359, 1, none, []⟩, by decide, by decide, by decide⟩
  obtain ⟨h0, h1⟩ := absorb_toNat_of_inv e hs
  obtain ⟨hle0, hle1⟩ := sums_le_of_inv e hs
  have hk : s.cnt.val + 1 ≤ 360 := s.cnt.isLt
  refine ⟨h0, h1, ?_, ?_⟩
  · rw [h0, ← c0Bound_360]
    exact hle0.trans (c0Bound_le_c0Bound hk)
  · rw [h1, ← c1Bound_360]
    exact hle1.trans (c1Bound_le_c1Bound hk)

end Sys2Proof.Machine

/-!
PROOFS. The statements about the step and its runs (spec/00_scope.md R10, 20_memory.md R45 and R46,
70_reset_and_hazards.md R158 and R160).
-/

namespace Sys2Proof.Machine

/-! ### The step (R10) and the commands -/

/-- A command driven by its canonical word is performed. -/
theorem afterInput_encode (i : Instr) (s : State) : afterInput (wordInput (encode i)) s = afterCommand i s := by
  rw [afterInput_word, decode_encode]

/-- Every command is well formed (R65). -/
theorem wf_eq_true (i : Instr) : i.wf = true := by cases i <;> rfl

/-- Settles O20: the word driven is decoded, and performing it is `exec`. -/
theorem stepRunsTheDecodedCommand : Obligations.StepRunsTheDecodedCommand := by
  unfold Obligations.StepRunsTheDecodedCommand
  refine ⟨fun s w rest h => ⟨wf_eq_true _, ?_⟩, fun s n w i h => ?_⟩
  · rw [step_of_input h, exec_eq]
    rfl
  · have hi : decode (BitVec.ofNat 34 w) = i := by
      rw [decodeTableWord] at h
      split at h
      · exact Option.some.inj h
      · cases h
    rw [withFetchWord_eq, step_load_word, hi, load_self]

/-- Settles O21: the step takes the head of the inputs before performing it, and no command touches them. -/
theorem stepTakesOneInput : Obligations.StepTakesOneInput := by
  unfold Obligations.StepTakesOneInput
  refine ⟨fun s h => ?_, fun s t h => ?_, fun i s t h => ?_⟩
  · have hdriven : drivenInput s = idleInput := by rw [drivenInput, h]; rfl
    have htake : takeInput s = s := State.ext_fields rfl rfl rfl rfl rfl (by rw [takeInput_input, h]; rfl)
    rw [step_eq, hdriven, htake, afterInput_idle]
    rfl
  · rw [step_next h, afterInput_input, takeInput_input]
  · rw [exec_next h, afterCommand_input]

/-- Settles O23: the fields each command's next state keeps. -/
theorem framesOfTheCommands : Obligations.FramesOfTheCommands := by
  unfold Obligations.FramesOfTheCommands
  refine ⟨fun s t h => ?_, fun e s t h => ?_, fun b s t h => ?_, fun s t h => ?_⟩
  · rw [exec_next h]
    exact ⟨rfl, rfl⟩
  · rw [exec_next h]
    exact ⟨afterCommand_input _ s, rfl, pushElement_nred_inBlock⟩
  · rw [exec_next h]
    exact ⟨afterCommand_input _ s, rfl, pushElement_nred_inBlock⟩
  · rw [exec_next h]
    refine ⟨afterCommand_input _ s, fun hclosed => ?_⟩
    rw [afterCommand_fin_of_closed hclosed]
    exact ⟨rfl, rfl, rfl, rfl⟩

/-- A second element never leads to the state of the first: the count has moved on. -/
theorem pushElement_ne_self (e : Elem) (s : State) : respond none (pushElement e s) ≠ s := by
  intro h
  have hcnt : (pushElement e s).cnt.val = s.cnt.val := congrArg (·.cnt.val) h
  rw [pushElement_cnt_val] at hcnt
  rcases cnt_cases s with hk | hk <;> omega

/-- Settles O26: CLR and FIN find what they leave; a push moves the count on from every state. -/
theorem onlyClrFinIdleAreIdempotent : Obligations.OnlyClrFinIdleAreIdempotent := by
  unfold Obligations.OnlyClrFinIdleAreIdempotent
  refine ⟨fun s t h => ?_, fun s t h => ?_, fun s => rfl, fun e s t _ h => ?_, fun b s t _ h => ?_⟩
  · rw [exec_next h, exec_eq]
    rfl
  · rw [exec_next h, exec_eq, afterCommand_fin_fin]
  · exact pushElement_ne_self e t (exec_next h).symm
  · exact pushElement_ne_self (elementOfByte b) t (exec_next h).symm

/-! ### Runs (R46) -/

/-- A run of two sequences joined is the second's from where the first's ends. -/
theorem runInputs_append (a b : List Input) (s : State) :
    runInputs (a ++ b) s =
      ((runInputs b (runInputs a s).1).1, (runInputs a s).2 ++ (runInputs b (runInputs a s).1).2) := by
  induction a generalizing s with
  | nil => rfl
  | cons x a ih => rw [List.cons_append, runInputs_cons_eq, runInputs_cons_eq, ih, List.append_assoc]

/-- Settles O27: by induction on the first sequence. -/
theorem runsCompose : Obligations.RunsCompose := by
  unfold Obligations.RunsCompose
  exact runInputs_append

/-- Settles O40: idle steps change no response (R100), and the second FIN finds the registers the first left. -/
theorem lostResponseCanBeReadAgain : Obligations.LostResponseCanBeReadAgain := by
  unfold Obligations.LostResponseCanBeReadAgain
  intro n s
  have hdrop : dropIdles (List.replicate n idleInput ++ [wordInput (encode .fin)]) = [wordInput (encode .fin)] := by
    rw [dropIdles, List.filter_append, List.filter_replicate]
    simp [wordInput, idleInput]
  refine ⟨pack (closeBlock s), ?_⟩
  rw [runInputs_cons_eq, (runInputs_dropIdles _ _).1, hdrop, runInputs_cons_eq, afterInput_encode,
    afterInput_encode, afterCommand_fin_fin]
  rfl

/-- No step of this engine stops, so the host's run and the model's go through the same states (R130). -/
theorem core_run_eq (n : Nat) (s : State) : Host.Core.run core n s = .next (run n s).1 := by
  induction n generalizing s with
  | zero => rfl
  | succ n ih => rw [core_run_succ core n (step_eq s), ih, run_succ]

theorem length_commandInputs_invocation (S : List Elem) : (commandInputs (invocation S)).length = S.length + 2 := by
  simp [commandInputs, invocation, pushes]

/-- Settles O41: the invocation is n + 2 commands, and the host's run of them does not stop. -/
theorem invocationTakesNPlusTwoSteps : Obligations.InvocationTakesNPlusTwoSteps := by
  unfold Obligations.InvocationTakesNPlusTwoSteps
  intro S s
  rw [core_run_eq, runCommands, runInputs, length_commandInputs_invocation]

end Sys2Proof.Machine

/-!
PROOFS. The statements about the reference function (spec/40_core_function.md): the laws of the arithmetic (R85, R90), the
partition into blocks (R80, R87), the closed form (R88), and what the checksum detects (R92).
-/

namespace Sys2Proof.Machine

/-! ### Two laws of the engine's arithmetic (R85, R90) -/

/-- Settles O12: `c1` shifted past the 32 bits that `c0` needs. -/
theorem packIsTheWeightedSum : Obligations.PackIsTheWeightedSum := by
  unfold Obligations.PackIsTheWeightedSum
  exact fun _ => pack_toNat

/-- Settles O13: 2^32 is 1 modulo the modulus, so a high half counts as much as a low one. -/
theorem reductionFoldsTheHalves : Obligations.ReductionFoldsTheHalves := by
  unfold Obligations.ReductionFoldsTheHalves
  intro x
  rw [BitVec.toNat_umod, modAcc_toNat]
  omega

/-! ### The blocks (R80 step 2, R87) -/

/-- Induction along the blocks: from the rest after the first block to the whole. -/
theorem blocks_induction {P : List Elem → Prop} (hnil : P [])
    (hblock : ∀ S, S ≠ [] → P (S.drop Config.block) → P S) (S : List Elem) : P S := by
  by_cases h : S = []
  · rwa [h]
  · exact hblock S h (blocks_induction hnil hblock (S.drop Config.block))
termination_by S.length
decreasing_by
  rw [List.length_drop]
  exact Nat.sub_lt (List.length_pos_iff.2 h) (by decide)

theorem flatten_blocks (S : List Elem) : (blocks S).flatten = S := by
  induction S using blocks_induction with
  | hnil => rfl
  | hblock S h ih => rw [blocks_of_ne_nil h, List.flatten_cons, ih, List.take_append_drop]

theorem blocks_ne_nil {S : List Elem} (h : S ≠ []) : blocks S ≠ [] := by
  rw [blocks_of_ne_nil h]
  exact List.cons_ne_nil _ _

theorem length_of_mem_blocks {S K : List Elem} (hK : K ∈ blocks S) : 1 ≤ K.length ∧ K.length ≤ 360 := by
  induction S using blocks_induction with
  | hnil => cases hK
  | hblock S h ih =>
    have hpos : 0 < S.length := List.length_pos_iff.2 h
    rw [blocks_of_ne_nil h] at hK
    rcases List.mem_cons.1 hK with rfl | hK
    · rw [List.length_take, Config.block]
      omega
    · exact ih hK

/-- Where another block follows, the first has taken all it can. -/
theorem length_of_mem_dropLast_blocks {S K : List Elem} (hK : K ∈ (blocks S).dropLast) : K.length = 360 := by
  induction S using blocks_induction with
  | hnil => cases hK
  | hblock S h ih =>
    rw [blocks_of_ne_nil h] at hK
    by_cases hrest : S.drop Config.block = []
    · rw [hrest, blocks_nil] at hK
      cases hK
    · rw [List.dropLast_cons_of_ne_nil (blocks_ne_nil hrest)] at hK
      rcases List.mem_cons.1 hK with rfl | hK
      · have hlen : 360 < S.length := by simpa [List.drop_eq_nil_iff] using hrest
        rw [List.length_take, Config.block]
        omega
      · exact ih hK

/-- Settles O34: block by block, and by the count of the blocks. -/
theorem blocksPartitionTheSequence : Obligations.BlocksPartitionTheSequence := by
  unfold Obligations.BlocksPartitionTheSequence
  refine ⟨fun S => ⟨flatten_blocks S, length_blocks S, fun K => length_of_mem_blocks,
    fun K => length_of_mem_dropLast_blocks⟩, fun S h => ?_, fun S h => ?_⟩
  · rw [length_blocks, h]
    rfl
  · rw [length_blocks, h]
    rfl

/-! ### The sums, and what reducing between blocks leaves of them (R88) -/

theorem blockSums_append (K T : List Elem) (p : Nat × Nat) : blockSums (K ++ T) p = blockSums T (blockSums K p) := by
  induction K generalizing p with
  | nil => rfl
  | cons e K ih => exact ih _

/-- A block's sums from any pair are its plain and its weighted sum on top of that pair. -/
theorem blockSums_eq (K : List Elem) (p : Nat × Nat) :
    blockSums K p = (p.1 + sumA K, p.2 + K.length * p.1 + sumB K) := by
  induction K generalizing p with
  | nil => simp [blockSums, sumA, sumB]
  | cons e K ih =>
    rw [blockSums, ih, sumA, sumB, List.length_cons]
    refine Prod.ext ?_ ?_
    · exact Nat.add_assoc _ _ _
    · show p.2 + (p.1 + e.toNat) + K.length * (p.1 + e.toNat) + sumB K = _
      ring

/-- Reducing a pair before a block changes nothing of that block's reduced sums. -/
theorem reducedSums_reducedSums (p : Nat × Nat) (K T : List Elem) :
    reducedSums (reducedSums p K) T = reducedSums p (K ++ T) := by
  simp only [reducedSums, blockSums_append, blockSums_eq T]
  refine Prod.ext ?_ ?_ <;> simp [Nat.add_mod, Nat.mul_mod]

/-- The block size does not appear: reduced block by block, the sums are those reduced once at the end. -/
theorem foldl_reducedSums_blocks (S : List Elem) (p : Nat × Nat) :
    (blocks S).foldl reducedSums (reducedSums p []) = reducedSums p S := by
  induction S using blocks_induction generalizing p with
  | hnil => rfl
  | hblock S h ih =>
    calc (blocks S).foldl reducedSums (reducedSums p [])
        = (blocks (S.drop Config.block)).foldl reducedSums (reducedSums p (S.take Config.block)) := by
          rw [blocks_of_ne_nil h, List.foldl_cons, reducedSums_reducedSums, List.nil_append]
      _ = (blocks (S.drop Config.block)).foldl reducedSums (reducedSums (reducedSums p (S.take Config.block)) []) := by
          rw [reducedSums_reducedSums, List.append_nil]
      _ = reducedSums p S := by rw [ih, reducedSums_reducedSums, List.take_append_drop]

theorem checksumPair_eq_reducedSums (S : List Elem) : checksumPair S = reducedSums (0, 0) S :=
  foldl_reducedSums_blocks S (0, 0)

theorem checksumPair_eq (S : List Elem) : checksumPair S = (sumA S % 0xFFFFFFFF, sumB S % 0xFFFFFFFF) := by
  rw [checksumPair_eq_reducedSums, reducedSums, blockSums_eq]
  simp

/-- The pair of a sequence continued. -/
theorem checksumPair_append (S T : List Elem) : checksumPair (S ++ T) = reducedSums (checksumPair S) T := by
  rw [checksumPair_eq_reducedSums, checksumPair_eq_reducedSums, reducedSums_reducedSums]

/-- Packing loses nothing where the low component fits its half and the high one its own. -/
theorem packPair_toNat {p : Nat × Nat} (h0 : p.1 < 2 ^ 32) (h1 : p.2 < 2 ^ 32) :
    (packPair p).toNat = p.2 * 2 ^ 32 + p.1 := by
  rw [packPair, ← Nat.shiftLeft_add_eq_or_of_lt h0, Nat.shiftLeft_eq, BitVec.toNat_ofNat,
    Nat.mod_eq_of_lt (by omega)]

theorem checksum_toNat (S : List Elem) :
    (checksum S).toNat = (sumB S % 0xFFFFFFFF) * 2 ^ 32 + sumA S % 0xFFFFFFFF := by
  rw [checksum, checksumPair_eq, packPair_toNat (by dsimp only; omega) (by dsimp only; omega)]

/-- Settles O35: reducing between the blocks leaves the residues of the plain and the weighted sum, and packing puts
them side by side. -/
theorem checksumClosedForm : Obligations.ChecksumClosedForm := by
  unfold Obligations.ChecksumClosedForm
  exact checksum_toNat

theorem resultLo_checksum_toNat (S : List Elem) : (resultLo (checksum S)).toNat = sumA S % 0xFFFFFFFF := by
  rw [resultLo_toNat, checksum_toNat]
  omega

theorem resultHi_checksum_toNat (S : List Elem) : (resultHi (checksum S)).toNat = sumB S % 0xFFFFFFFF := by
  rw [resultHi_toNat, checksum_toNat]
  omega

/-! ### What the checksum detects (R92) -/

theorem sumA_append (S T : List Elem) : sumA (S ++ T) = sumA S + sumA T := by
  induction S with
  | nil => exact (Nat.zero_add _).symm
  | cons e S ih => rw [List.cons_append, sumA, sumA, ih, Nat.add_assoc]

/-- Elements that follow weigh the earlier ones once more each. -/
theorem sumB_append (S T : List Elem) : sumB (S ++ T) = sumB S + T.length * sumA S + sumB T := by
  induction S with
  | nil => simp [sumA, sumB]
  | cons e S ih =>
    rw [List.cons_append, sumB, sumB, sumA, ih, List.length_append]
    ring

/-- The halves tell two checksums apart, and they are the two sums' residues. -/
theorem checksum_eq_iff (S T : List Elem) : checksum S = checksum T ↔
    sumA S % 0xFFFFFFFF = sumA T % 0xFFFFFFFF ∧ sumB S % 0xFFFFFFFF = sumB T % 0xFFFFFFFF := by
  rw [← BitVec.toNat_inj, checksum_toNat, checksum_toNat]
  omega

/-- An element counts by its residue alone. -/
theorem checksum_eq_of_modEq (P Q : List Elem) {e f : Elem} (h : e.toNat ≡ f.toNat [MOD 0xFFFFFFFF]) :
    checksum (P ++ e :: Q) = checksum (P ++ f :: Q) := by
  rw [checksum_eq_iff]
  simp only [sumA_append, sumB_append, sumA, sumB, List.length_cons]
  exact ⟨(h.add_right _).add_left _, ((h.mul_left _).add_right _).add_left _⟩

/-- Settles O45: the checksum is the two residues; 0 and 0xFFFFFFFF have the same, and a swap replaces both. -/
theorem congruentElementsAreNotDistinguished : Obligations.CongruentElementsAreNotDistinguished := by
  unfold Obligations.CongruentElementsAreNotDistinguished
  have hzero : (0x00000000#32).toNat ≡ (0xFFFFFFFF#32).toNat [MOD 0xFFFFFFFF] := by decide
  refine ⟨checksum_eq_iff, fun P Q => checksum_eq_of_modEq P Q hzero, fun P M Q => ?_⟩
  have hsecond := checksum_eq_of_modEq (P ++ 0xFFFFFFFF#32 :: M) Q hzero.symm
  rw [List.append_assoc, List.append_assoc, List.cons_append, List.cons_append] at hsecond
  exact (checksum_eq_of_modEq P _ hzero).trans hsecond

/-- The element of one byte among those of the bytes around it. -/
theorem elementsOfBytes_append_cons (P Q : List Byte) (b : Byte) :
    elementsOfBytes (P ++ b :: Q) = elementsOfBytes P ++ elementOfByte b :: elementsOfBytes Q := List.map_append

/-- Settles O46: the low half is the plain sum's residue, which two bytes, both below the modulus, leave unequal. -/
theorem alteredByteChangesTheLowHalf : Obligations.AlteredByteChangesTheLowHalf := by
  unfold Obligations.AlteredByteChangesTheLowHalf
  intro P Q a b hab heq
  have hmod := congrArg BitVec.toNat heq
  rw [checksumOfBytes, checksumOfBytes, resultLo_checksum_toNat, resultLo_checksum_toNat] at hmod
  simp only [elementsOfBytes_append_cons, sumA_append, sumA, elementOfByte_toNat] at hmod
  have ha := a.isLt
  have hb := b.isLt
  exact hab (BitVec.eq_of_toNat_eq (by omega))

/-- Swapping two elements changes the weighted sum by their distance times their difference. -/
theorem sumB_swap (P M Q : List Elem) (e f : Elem) :
    (sumB (P ++ e :: (M ++ f :: Q)) : Int) - sumB (P ++ f :: (M ++ e :: Q)) =
      (M.length + 1) * ((e.toNat : Int) - f.toNat) := by
  simp only [sumB_append, sumB, List.length_append, List.length_cons]
  push_cast
  ring

/-- The high halves agree where the modulus divides the difference of the weighted sums. -/
theorem resultHi_checksum_eq_iff (S T : List Elem) :
    resultHi (checksum S) = resultHi (checksum T) ↔ (0xFFFFFFFF : Int) ∣ (sumB S : Int) - sumB T := by
  rw [← BitVec.toNat_inj, resultHi_checksum_toNat, resultHi_checksum_toNat]
  omega

theorem resultHi_swappedBytes_eq_iff (P M Q : List Byte) (a b : Byte) :
    resultHi (checksumOfBytes (P ++ a :: (M ++ b :: Q))) = resultHi (checksumOfBytes (P ++ b :: (M ++ a :: Q))) ↔
      (0xFFFFFFFF : Int) ∣ ((M.length : Int) + 1) * ((a.toNat : Int) - (b.toNat : Int)) := by
  rw [checksumOfBytes, checksumOfBytes, resultHi_checksum_eq_iff]
  simp only [elementsOfBytes_append_cons, sumB_swap, length_elementsOfBytes, elementOfByte_toNat]

/-- Unequal bytes differ by at most 255, so nearer than 0xFFFFFFFF / 255 the product is no multiple but 0. -/
theorem not_dvd_of_near {d : Nat} {a b : Byte} (hab : a ≠ b) (h0 : 0 < d) (hd : d < 16843009) :
    ¬ (0xFFFFFFFF : Int) ∣ (d : Int) * ((a.toNat : Int) - (b.toNat : Int)) := by
  have ha := a.isLt
  have hb := b.isLt
  have hne : (a.toNat : Int) - b.toNat ≠ 0 := fun h => hab (BitVec.eq_of_toNat_eq (by omega))
  intro hdvd
  have hsmall : (d * ((a.toNat : Int) - b.toNat)).natAbs < (0xFFFFFFFF : Int).natAbs := by
    calc (d * ((a.toNat : Int) - b.toNat)).natAbs
        = d * ((a.toNat : Int) - b.toNat).natAbs := by rw [Int.natAbs_mul, Int.natAbs_natCast]
      _ ≤ d * 255 := Nat.mul_le_mul_left d (by omega)
      _ < (0xFFFFFFFF : Int).natAbs := by omega
  have hzero := Int.eq_zero_of_dvd_of_natAbs_lt_natAbs hdvd hsmall
  exact mul_ne_zero (by omega) hne hzero

/-- Settles O47: the swap changes the weighted sum by distance times difference; near bytes leave no multiple. -/
theorem swappedBytesChangeTheHighHalf : Obligations.SwappedBytesChangeTheHighHalf := by
  unfold Obligations.SwappedBytesChangeTheHighHalf
  intro P M Q a b
  refine ⟨resultHi_swappedBytes_eq_iff P M Q a b, fun hab hd => ?_⟩
  rw [Ne, resultHi_swappedBytes_eq_iff]
  exact mod_cast not_dvd_of_near hab (Nat.succ_pos M.length) hd

end Sys2Proof.Machine

/-!
PROOFS. The statements about invocations (spec/41_commands.md R105 to R108, 42_adapters.md R121 and R123): what the engine
holds after a push sequence, and what FIN makes of it.
-/

namespace Sys2Proof.Machine

/-! ### Induction along a push sequence (R105) -/

/-- An input of a push sequence is idle, or pushes one element, as PUSH or as PUSHB. -/
theorem pushedBy_cases {x : Input} {E : List Elem} (h : pushedBy x = some E) :
    (E = [] ∧ ∀ s, afterInput x s = respond none s) ∨
    ∃ e, E = [e] ∧ ∀ s, afterInput x s = respond none (pushElement e s) := by
  rcases x with ⟨_ | _, _ | w⟩
  · exact .inl ⟨(Option.some.inj h).symm, fun _ => rfl⟩
  · have hword (s : State) : afterInput { reset := false, cmd := some w } s = afterCommand (decode w) s := rfl
    cases hw : decode w with
    | clr => simp [pushedBy, hw] at h
    | push e =>
      simp only [pushedBy, hw, Bool.false_eq_true, if_false, Option.some.injEq] at h
      exact .inr ⟨e, h.symm, fun s => by rw [hword, hw, afterCommand]⟩
    | pushb b =>
      simp only [pushedBy, hw, Bool.false_eq_true, if_false, Option.some.injEq] at h
      exact .inr ⟨elementOfByte b, h.symm, fun s => by rw [hword, hw, afterCommand]⟩
    | fin => simp [pushedBy, hw] at h
  · cases h
  · cases h

theorem pushedElements_cons {x : Input} {ins : List Input} {T : List Elem} (h : pushedElements (x :: ins) = some T) :
    ∃ E S, pushedBy x = some E ∧ pushedElements ins = some S ∧ T = E ++ S := by
  rw [pushedElements] at h
  split at h
  case h_1 E S hE hS => exact ⟨E, S, hE, hS, (Option.some.inj h).symm⟩
  case h_2 => cases h

/-- What one element keeps of a state and the elements pushed so far, and the channels take no part in, a whole push
sequence keeps; and it emits nothing. -/
theorem runInputs_pushed {P : List Elem → State → Prop}
    (hchannels : ∀ S s r ins, P S s → P S (respond r (s.load ins)))
    (hpush : ∀ S s e, P S s → P (S ++ [e]) (pushElement e s))
    {ins : List Input} {S T : List Elem} {s : State} (hins : pushedElements ins = some T) (hs : P S s) :
    (runInputs ins s).2 = [] ∧ P (S ++ T) (runInputs ins s).1 := by
  induction ins generalizing S T s with
  | nil =>
    obtain rfl : [] = T := Option.some.inj hins
    rw [List.append_nil]
    exact ⟨rfl, hchannels S s s.res [] hs⟩
  | cons x ins ih =>
    obtain ⟨E, U, hE, hU, rfl⟩ := pushedElements_cons hins
    have hrespond {S' s'} (h : P S' s') : P S' (respond none s') := hchannels S' s' none s'.input h
    rw [runInputs_cons_eq, ← List.append_assoc]
    rcases pushedBy_cases hE with ⟨rfl, hx⟩ | ⟨e, rfl, hx⟩ <;> rw [hx]
    · rw [List.append_nil]
      exact ih hU (hrespond hs)
    · exact ih hU (hrespond (hpush S s e hs))

/-! ### One element on the pair of accumulators -/

/-- The accumulators as a pair of numbers, as the reference function has them (R80). -/
def State.sums (s : State) : Nat × Nat := (s.c0.toNat, s.c1.toNat)

theorem pushElement_sums_inBlock (e : Elem) {s : State} (hs : s.Inv) (h : s.cnt.val < 359) :
    (pushElement e s).sums = blockSums [e] s.sums := by
  obtain ⟨h0, h1, -⟩ := pushElement_exact_inBlock e hs h
  exact Prod.ext h0 h1

theorem pushElement_sums_last (e : Elem) {s : State} (hs : s.Inv) (h : s.cnt.val = 359) :
    (pushElement e s).sums = reducedSums s.sums [e] := by
  obtain ⟨h0, h1, -⟩ := pushElement_exact_last e hs h
  exact Prod.ext h0 h1

theorem reducedSums_blockSums (p : Nat × Nat) (K T : List Elem) :
    reducedSums (blockSums K p) T = reducedSums p (K ++ T) := by
  rw [reducedSums, reducedSums, blockSums_append]

/-- Modulo the modulus one element adds the same whether or not it fills the block. -/
theorem reducedSums_pushElement (e : Elem) {s : State} (hs : s.Inv) :
    reducedSums (pushElement e s).sums [] = reducedSums s.sums [e] := by
  rcases cnt_cases s with h | h
  · rw [pushElement_sums_inBlock e hs h, reducedSums_blockSums, List.append_nil]
  · rw [pushElement_sums_last e hs h, reducedSums_reducedSums, List.append_nil]

/-- How many elements' places the reductions and the count make up: each reduction a whole block. -/
def State.position (s : State) : Nat := 360 * s.nred + s.cnt.val

theorem pushElement_position (e : Elem) (s : State) : (pushElement e s).position = s.position + 1 := by
  rw [State.position, State.position, pushElement_cnt_val]
  rcases cnt_cases s with h | h
  · rw [pushElement_nred_inBlock h]
    omega
  · rw [pushElement_nred_last h]
    omega

/-! ### The state after a push sequence (R105) -/

/-- The elements of the full blocks of `S`. -/
def closedPart (S : List Elem) : List Elem := S.take (S.length - S.length % 360)

/-- The elements of `S` after its full blocks. -/
def openPart (S : List Elem) : List Elem := S.drop (S.length - S.length % 360)

theorem closedPart_append_openPart (S : List Elem) : closedPart S ++ openPart S = S := List.take_append_drop _ _

/-- The sums of the last elements, unreduced, on the reduced pair of the full blocks (R105). -/
def unreducedSums (S : List Elem) : Nat × Nat := blockSums (openPart S) (checksumPair (closedPart S))

/-- Reduced, they are the pair of the whole sequence continued. -/
theorem reducedSums_unreducedSums (S T : List Elem) : reducedSums (unreducedSums S) T = checksumPair (S ++ T) := by
  rw [unreducedSums, reducedSums_blockSums, ← checksumPair_append, ← List.append_assoc, closedPart_append_openPart]

/-- Within the block one more element leaves the full blocks as they are. -/
theorem unreducedSums_append_inBlock {S : List Elem} (e : Elem) (h : S.length % 360 < 359) :
    unreducedSums (S ++ [e]) = blockSums [e] (unreducedSums S) := by
  have hsplit : (S ++ [e]).length - (S ++ [e]).length % 360 = S.length - S.length % 360 := by
    rw [List.length_append, List.length_singleton]
    omega
  have hclosed : closedPart (S ++ [e]) = closedPart S := by
    rw [closedPart, closedPart, hsplit, List.take_append_of_le_length (Nat.sub_le _ _)]
  have hopen : openPart (S ++ [e]) = openPart S ++ [e] := by
    rw [openPart, openPart, hsplit, List.drop_append_of_le_length (Nat.sub_le _ _)]
  rw [unreducedSums, unreducedSums, hclosed, hopen, blockSums_append]

/-- The element that fills a block leaves none open. -/
theorem unreducedSums_append_last {S : List Elem} (e : Elem) (h : S.length % 360 = 359) :
    unreducedSums (S ++ [e]) = reducedSums (unreducedSums S) [e] := by
  have hfull : (S ++ [e]).length % 360 = 0 := by
    rw [List.length_append, List.length_singleton]
    omega
  have hclosed : closedPart (S ++ [e]) = S ++ [e] := by
    rw [closedPart, hfull, Nat.sub_zero, List.take_length]
  have hopen : openPart (S ++ [e]) = [] := by
    rw [openPart, hfull, Nat.sub_zero, List.drop_length]
  rw [reducedSums_unreducedSums, unreducedSums, hclosed, hopen, blockSums]

/-- The state the pushes of `S` lead to from the cleared state (R105). -/
def State.HasPushed (S : List Elem) (s : State) : Prop :=
  s.Inv ∧ s.position = S.length ∧ s.sums = unreducedSums S

theorem hasPushed_nil_of_cleared {s : State} (h : s.Cleared) : s.HasPushed [] := by
  have hinv := cleared_inv h
  obtain ⟨h0, h1, hcnt, hnred⟩ := h
  refine ⟨hinv, ?_, ?_⟩
  · rw [State.position, hcnt, hnred]
    rfl
  · rw [State.sums, h0, h1]
    rfl

/-- The count is the length's remainder. -/
theorem cnt_nred_of_hasPushed {S : List Elem} {s : State} (h : s.HasPushed S) :
    s.cnt.val = S.length % 360 ∧ s.nred = S.length / 360 := by
  obtain ⟨-, hpos, -⟩ := h
  have hcnt := s.cnt.isLt
  rw [State.position] at hpos
  omega

theorem hasPushed_push {S : List Elem} {s : State} (e : Elem) (h : s.HasPushed S) :
    (pushElement e s).HasPushed (S ++ [e]) := by
  obtain ⟨hcnt, -⟩ := cnt_nred_of_hasPushed h
  obtain ⟨hinv, hpos, hsums⟩ := h
  refine ⟨pushElement_inv e hinv, ?_, ?_⟩
  · rw [pushElement_position, hpos, List.length_append, List.length_singleton]
  · rcases cnt_cases s with hk | hk
    · rw [pushElement_sums_inBlock e hinv hk, hsums, unreducedSums_append_inBlock e (hcnt ▸ hk)]
    · rw [pushElement_sums_last e hinv hk, hsums, unreducedSums_append_last e (hcnt ▸ hk)]

/-- Settles O36: each element keeps `HasPushed`, which holds of nothing pushed in a cleared state; reduced, its sums are
the checksum's pair. -/
theorem stateAfterAPushSequence : Obligations.StateAfterAPushSequence := by
  unfold Obligations.StateAfterAPushSequence
  intro ins S s hins hclr
  obtain ⟨hres, hpushed⟩ := runInputs_pushed (P := fun S s => s.HasPushed S) (fun _ _ _ _ h => h)
    (fun _ _ e h => hasPushed_push e h) hins (hasPushed_nil_of_cleared hclr)
  rw [List.nil_append] at hpushed
  obtain ⟨hcnt, hnred⟩ := cnt_nred_of_hasPushed hpushed
  obtain ⟨-, -, hsums⟩ := hpushed
  have hpair : reducedSums (runInputs ins s).1.sums [] = (sumA S % 0xFFFFFFFF, sumB S % 0xFFFFFFFF) := by
    rw [hsums, reducedSums_unreducedSums, List.append_nil, checksumPair_eq]
  refine ⟨hres, hcnt, hnred, hsums, ?_, ?_⟩
  · rw [resultLo_checksum_toNat]
    exact (congrArg Prod.fst hpair).symm
  · rw [resultHi_checksum_toNat]
    exact (congrArg Prod.snd hpair).symm

/-! ### What FIN makes of the elements pushed (R106) -/

/-- The accumulators stand for the elements `S`: reduced, they are the pair of `checksum(S)`. Unlike `HasPushed` this
does not say where the reductions were, so FIN keeps it. -/
def State.Carries (S : List Elem) (s : State) : Prop :=
  s.Inv ∧ s.BlockEnd ∧ reducedSums s.sums [] = checksumPair S

theorem carries_push {S : List Elem} {s : State} (e : Elem) (h : s.Carries S) :
    (pushElement e s).Carries (S ++ [e]) := by
  obtain ⟨hinv, -, hsums⟩ := h
  refine ⟨pushElement_inv e hinv, pushElement_blockEnd e s, ?_⟩
  calc reducedSums (pushElement e s).sums []
      = reducedSums s.sums [e] := reducedSums_pushElement e hinv
    _ = reducedSums (reducedSums s.sums []) [e] := by rw [reducedSums_reducedSums, List.nil_append]
    _ = checksumPair (S ++ [e]) := by rw [hsums, checksumPair_append]

/-- A closed block holds the residues: a pair left alone was reduced before. -/
theorem closeBlock_sums {s : State} (hs : s.BlockEnd) : (closeBlock s).sums = reducedSums s.sums [] := by
  by_cases h : s.cnt.val = 0
  · obtain ⟨h0, h1⟩ := hs h
    rw [closeBlock_closed h]
    exact Prod.ext (Nat.mod_eq_of_lt (Nat.lt_succ_of_le h0)).symm (Nat.mod_eq_of_lt (Nat.lt_succ_of_le h1)).symm
  · rw [closeBlock_open h]
    exact Prod.ext (reduce_c0_toNat s) (reduce_c1_toNat s)

theorem carries_closeBlock {S : List Elem} {s : State} (h : s.Carries S) : (closeBlock s).Carries S := by
  obtain ⟨hinv, hend, hsums⟩ := h
  refine ⟨closeBlock_inv hinv, closeBlock_blockEnd hend, ?_⟩
  rw [closeBlock_sums hend, reducedSums_reducedSums, List.append_nil, hsums]

/-- On a reduced pair the engine's PACK is the reference function's. -/
theorem pack_eq_packPair {s : State} (h : Reduced s.c0 ∧ Reduced s.c1) : pack s = packPair s.sums := by
  obtain ⟨h0, h1⟩ := h
  apply BitVec.eq_of_toNat_eq
  rw [pack_toNat h0 h1, packPair_toNat (h0.trans_lt (by decide)) (h1.trans_lt (by decide)), State.sums]

/-- What FIN emits. -/
theorem pack_closeBlock_of_carries {S : List Elem} {s : State} (h : s.Carries S) :
    pack (closeBlock s) = checksum S := by
  obtain ⟨-, hend, hsums⟩ := h
  rw [pack_eq_packPair (closeBlock_reduced hend), closeBlock_sums hend, hsums, checksum]

/-- Whole blocks before a sequence add themselves to its count (R87). -/
theorem blockCount_full_add (n m : Nat) : blockCount (360 * n + m) = n + blockCount m := by
  simp only [blockCount, Config.block]
  omega

/-- With the last, open block closed the reductions are the blocks of all places made up so far. -/
theorem closeBlock_nred (s : State) : (closeBlock s).nred = blockCount s.position := by
  rw [State.position, blockCount_full_add]
  by_cases h : s.cnt.val = 0
  · rw [closeBlock_closed h, h, blockCount_zero, Nat.add_zero]
  · have hlast : s.cnt.val - Config.block = 0 := Nat.sub_eq_zero_of_le s.cnt.isLt.le
    rw [closeBlock_open h, reduce_nred, blockCount_of_pos (Nat.pos_of_ne_zero h), hlast, blockCount_zero]

/-- The input that drives FIN. -/
abbrev finInput : Input := wordInput (encode .fin)

theorem runInputs_fin (s : State) :
    runInputs [finInput] s = ((afterCommand .fin s).load [], [pack (closeBlock s)]) := by
  rw [runInputs_cons_eq, afterInput_encode]
  rfl

/-- Between two pieces of a stream: the elements `S` are in, no block is open, and `n` reductions were made. -/
def State.Between (S : List Elem) (n : Nat) (s : State) : Prop := s.Carries S ∧ s.cnt.val = 0 ∧ s.nred = n

theorem reset_between : State.reset.Between [] 0 := by
  have hclr : State.reset.Cleared := reset_load_cleared []
  exact ⟨⟨cleared_inv hclr, cleared_blockEnd hclr, rfl⟩, rfl, rfl⟩

/-- A push sequence adds its elements and its places, wherever it starts. -/
theorem runInputs_pushed_carries {ins : List Input} {S T : List Elem} {s : State}
    (hins : pushedElements ins = some T) (hs : s.Carries S) :
    (runInputs ins s).2 = [] ∧ (runInputs ins s).1.Carries (S ++ T) ∧
      (runInputs ins s).1.position = s.position + T.length := by
  have hnil : s.Carries (S ++ []) ∧ s.position = s.position + ([] : List Elem).length :=
    ⟨by rwa [List.append_nil], rfl⟩
  refine runInputs_pushed (P := fun U t => t.Carries (S ++ U) ∧ t.position = s.position + U.length)
    (fun _ _ _ _ h => h) (fun U t e h => ?_) hins hnil
  obtain ⟨hcarries, hpos⟩ := h
  refine ⟨?_, ?_⟩
  · rw [← List.append_assoc]
    exact carries_push e hcarries
  · rw [pushElement_position, hpos, List.length_append, List.length_singleton, Nat.add_assoc]

/-- A piece of a stream: pushes of `T`, then FIN, emit the checksum of all so far, on the FIN step, and make the
reductions of `T`'s own blocks. -/
theorem runInputs_piece {ins : List Input} {S T : List Elem} {n : Nat} {s : State}
    (hins : pushedElements ins = some T) (hs : s.Between S n) :
    (runInputs (ins ++ [finInput]) s).2 = [checksum (S ++ T)] ∧
      (runInputs (ins ++ [finInput]) s).1.res = some (checksum (S ++ T)) ∧
      (runInputs (ins ++ [finInput]) s).1.Between (S ++ T) (n + blockCount T.length) := by
  obtain ⟨hcarries, hcnt, hnred⟩ := hs
  obtain ⟨hres, hlast, hpos⟩ := runInputs_pushed_carries hins hcarries
  rw [runInputs_append, runInputs_fin, hres, pack_closeBlock_of_carries hlast]
  refine ⟨rfl, congrArg some (pack_closeBlock_of_carries hlast), carries_closeBlock hlast, ?_, ?_⟩
  · exact congrArg Fin.val (closeBlock_cnt _)
  · rw [load_nred, afterCommand, respond_nred, closeBlock_nred, hpos, State.position, hcnt, hnred, Nat.add_zero,
      blockCount_full_add]

/-- Whatever the state, what is driven after a CLR runs as from reset (R101). -/
theorem runInputs_clr_cons (ins : List Input) (s : State) :
    runInputs (wordInput (encode .clr) :: ins) s = runInputs ins State.reset := by
  rw [runInputs_cons_eq, afterInput_encode, afterCommand, respond_none_clear, runInputs_load]
  rfl

/-- Settles O37: CLR leads to reset, and the invocation is one piece from there. -/
theorem invocationEmitsTheChecksum : Obligations.InvocationEmitsTheChecksum := by
  unfold Obligations.InvocationEmitsTheChecksum
  intro ins S hins
  obtain ⟨hreset, -⟩ := reset_between
  obtain ⟨hbefore, -⟩ := runInputs_pushed_carries hins hreset
  obtain ⟨hout, hres, -, hcnt, hnred⟩ := runInputs_piece hins reset_between
  rw [Nat.zero_add] at hnred
  refine ⟨fun s => ?_, hout⟩
  rw [runInputs_clr_cons, runInputs_clr_cons]
  exact ⟨hbefore, hout, hres, hnred, hcnt⟩

/-! ### Invocations as sequences of commands (R106 to R108) -/

theorem commandInputs_append (a b : List Instr) : commandInputs (a ++ b) = commandInputs a ++ commandInputs b :=
  List.map_append

theorem runCommands_append (a b : List Instr) (s : State) :
    runCommands (a ++ b) s = ((runCommands b (runCommands a s).1).1,
      (runCommands a s).2 ++ (runCommands b (runCommands a s).1).2) := by
  rw [runCommands, commandInputs_append, runInputs_append]
  rfl

/-- Commands that push one element each make a push sequence of those elements. -/
theorem pushedElements_commandInputs_map {α : Type} {push : α → Instr} {element : α → Elem}
    (h : ∀ a, pushedBy (wordInput (encode (push a))) = some [element a]) (operands : List α) :
    pushedElements (commandInputs (operands.map push)) = some (operands.map element) := by
  induction operands with
  | nil => rfl
  | cons a operands ih =>
    rw [commandInputs] at ih
    rw [commandInputs, List.map_cons, List.map_cons, pushedElements, h, ih]
    rfl

theorem pushedBy_push (e : Elem) : pushedBy (wordInput (encode (.push e))) = some [e] := by
  simp [pushedBy, wordInput, decode_encode]

theorem pushedBy_pushb (b : Byte) : pushedBy (wordInput (encode (.pushb b))) = some [elementOfByte b] := by
  simp [pushedBy, wordInput, decode_encode]

theorem pushedElements_pushes (S : List Elem) : pushedElements (commandInputs (pushes S)) = some S := by
  rw [pushes, pushedElements_commandInputs_map pushedBy_push, List.map_id']

theorem pushedElements_pushbs (B : List Byte) :
    pushedElements (commandInputs (B.map Instr.pushb)) = some (elementsOfBytes B) :=
  pushedElements_commandInputs_map pushedBy_pushb B

/-- A piece of a stream, as commands. -/
theorem runCommands_piece {cs : List Instr} {S T : List Elem} {n : Nat} {s : State}
    (hcs : pushedElements (commandInputs cs) = some T) (hs : s.Between S n) :
    (runCommands (cs ++ [.fin]) s).2 = [checksum (S ++ T)] ∧
      (runCommands (cs ++ [.fin]) s).1.Between (S ++ T) (n + blockCount T.length) := by
  obtain ⟨hout, -, hlast⟩ := runInputs_piece hcs hs
  rw [runCommands, commandInputs_append]
  exact ⟨hout, hlast⟩

/-- The pieces of a stream one after another, from wherever it stands. -/
theorem runCommands_pieces (L : List (List Elem)) {S : List Elem} {n : Nat} {s : State} (hs : s.Between S n) :
    (runCommands (L.flatMap fun T => pushes T ++ [.fin]) s).2 =
        (List.range L.length).map (fun k => checksum (S ++ (L.take (k + 1)).flatten)) ∧
      (runCommands (L.flatMap fun T => pushes T ++ [.fin]) s).1.nred =
        n + (L.map fun T => blockCount T.length).sum := by
  induction L generalizing S n s with
  | nil =>
    obtain ⟨-, -, hnred⟩ := hs
    exact ⟨rfl, hnred⟩
  | cons T L ih =>
    obtain ⟨hout, hlast⟩ := runCommands_piece (pushedElements_pushes T) hs
    obtain ⟨houts, hnred⟩ := ih hlast
    rw [List.flatMap_cons, runCommands_append, hout, houts, hnred]
    refine ⟨?_, by rw [List.map_cons, List.sum_cons, Nat.add_assoc]⟩
    rw [List.length_cons, List.range_succ_eq_map, List.map_cons, List.map_map]
    simp [Function.comp_def]

/-- Settles O38: CLR leads to reset, and the rest is the pieces from there. -/
theorem interposedFinsAreTransparent : Obligations.InterposedFinsAreTransparent := by
  unfold Obligations.InterposedFinsAreTransparent
  intro L s
  obtain ⟨hout, hnred⟩ := runCommands_pieces L reset_between
  rw [Nat.zero_add] at hnred
  rw [runCommands_clr_cons]
  exact ⟨hout, hnred⟩

/-- An invocation, its pushes of either kind, is one piece from reset. -/
theorem runCommands_invocation {cs : List Instr} {S : List Elem} (hcs : pushedElements (commandInputs cs) = some S)
    (s : State) :
    (runCommands (.clr :: (cs ++ [.fin])) s).2 = [checksum S] ∧
      (runCommands (.clr :: (cs ++ [.fin])) s).1.Between S (blockCount S.length) := by
  obtain ⟨hout, hlast⟩ := runCommands_piece hcs reset_between
  rw [Nat.zero_add] at hlast
  rw [runCommands_clr_cons]
  exact ⟨hout, hlast⟩

/-- Settles O39: what follows is a second piece from where the first invocation ends. -/
theorem missingClrContinuesTheSum : Obligations.MissingClrContinuesTheSum := by
  unfold Obligations.MissingClrContinuesTheSum
  intro P S s
  obtain ⟨-, hlast⟩ := runCommands_invocation (pushedElements_pushes P) s
  exact (runCommands_piece (pushedElements_pushes S) hlast).1

/-! ### The adapters (R121, R123) -/

theorem runCommands_byteInvocation (B : List Byte) (s : State) :
    (runCommands (byteInvocation B) s).2 = [checksumOfBytes B] :=
  (runCommands_invocation (pushedElements_pushbs B) s).1

/-- A leading zero adds to neither sum. -/
theorem checksumOfBytes_zero_cons (B : List Byte) : checksumOfBytes (0#8 :: B) = checksumOfBytes B := by
  have hA : sumA (elementsOfBytes (0#8 :: B)) = sumA (elementsOfBytes B) := Nat.zero_add _
  have hB : sumB (elementsOfBytes (0#8 :: B)) = sumB (elementsOfBytes B) := Nat.zero_add _
  rw [checksumOfBytes, checksumOfBytes, checksum_eq_iff, hA, hB]
  exact ⟨rfl, rfl⟩

theorem checksumOfBytes_zeros (n : Nat) : checksumOfBytes (List.replicate n 0#8) = 0#64 := by
  induction n with
  | zero => rfl
  | succ n ih => rw [List.replicate_succ, checksumOfBytes_zero_cons, ih]

/-- A trailing zero adds the plain sum once more to the weighted one. -/
theorem checksumOfBytes_append_zero_eq_iff (B : List Byte) :
    checksumOfBytes (B ++ [0#8]) = checksumOfBytes B ↔ 0xFFFFFFFF ∣ sumA (elementsOfBytes B) := by
  have hA : sumA [elementOfByte 0#8] = 0 := rfl
  have hB : sumB [elementOfByte 0#8] = 0 := rfl
  have hsplit : elementsOfBytes (B ++ [0#8]) = elementsOfBytes B ++ [elementOfByte 0#8] := List.map_append
  rw [checksumOfBytes, checksumOfBytes, checksum_eq_iff, hsplit, sumA_append, sumB_append, hA, hB,
    List.length_singleton]
  omega

/-- Settles O43: CHECKSUM_BYTES is an invocation of the bytes' elements; zeros by what they add to the two sums. -/
theorem byteInvocationEmitsTheByteChecksum : Obligations.ByteInvocationEmitsTheByteChecksum := by
  unfold Obligations.ByteInvocationEmitsTheByteChecksum
  exact ⟨runCommands_byteInvocation, checksumOfBytes_zeros, checksumOfBytes_zero_cons,
    fun B => not_congr (checksumOfBytes_append_zero_eq_iff B)⟩

/-- The text pseudo-command is the byte pseudo-command on the text's bytes (R69). -/
theorem expand_checksumText (enc : TextEncoding) (t : List Char) :
    expand enc (.checksumText t) = byteInvocation (enc t) := rfl

/-- Settles O44: through the byte pseudo-command, whatever the encoding. -/
theorem textIsItsBytes : Obligations.TextIsItsBytes := by
  unfold Obligations.TextIsItsBytes
  refine ⟨fun enc t s => ?_, fun _ _ => rfl⟩
  rw [expand_checksumText, checksumOfText]
  exact ⟨runCommands_byteInvocation (enc t) s, rfl⟩

end Sys2Proof.Machine
